-- ==== Sys2Proof/Word.lean ====
section
/-! DEFINITION. The word types of the block: the instruction word, the address label and the register
specifier. -/

namespace Sys2Proof

/-- An instruction word, and the `word` port: `WORD_W` = 32 bits (00_scope.md R10, R35). Bit 31 is the
leftmost digit of the line (R11). -/
abbrev Word := BitVec 32

/-- The address that labels a line: `ADDR_W` = 32 bits, unsigned (00_scope.md R10, 10_state.md R15). -/
abbrev Addr := BitVec 32

/-- A register specifier: a field of `REG_W` = 5 bits, a number 0 to 31 with no special value
(10_state.md R13). -/
abbrev Reg := BitVec 5

end Sys2Proof
end

