-- ==== Sys2Proof/Syntax.lean ====
section
/-! DEFINITION. The names of the encoding: format tags, mnemonics, the rows of the opcode table, the operand
shapes of the result record, the 18 instructions, and what one line can mean. -/

namespace Sys2Proof

/-- The eight format tags, in the order of 10_state.md R20. `nop` has no opcode, no layout and no row
(30_encoding.md R46); it is kept so that the type has the source's eight values (47_break_nop_data.md R104). -/
inductive Format where
  | r | i | d | b | cb | im | brk | nop
deriving DecidableEq, Repr

/-- The 18 mnemonics, in the order of the opcode table (30_encoding.md R47). `brk` is BREAK. -/
inductive Mnemonic where
  | b | cbz | cbnz | movz | movk | addi | subi | and | add | orr | sub | lsr | lsl | asr | eor
  | stur | ldur | brk
deriving DecidableEq, Repr

/-- The instruction descriptor a key maps to: mnemonic and format tag (00_scope.md section 7). -/
structure Descriptor where
  mnemonic : Mnemonic
  format : Format
deriving DecidableEq, Repr

/-- One row of the opcode table (30_encoding.md R47): the key's length in bits, the bit pattern read as a
number, and the descriptor. -/
structure Row where
  len : Nat
  key : Nat
  desc : Descriptor
deriving DecidableEq, Repr

/-- The operand shapes of the result record (10_state.md R19): register specifiers and the shift amount of
format R are bit fields; immediates, magnitudes and offsets are mathematical integers. -/
inductive Operands where
  | r (rd rn rm : Reg) (shamt : BitVec 6)
  | i (rd rn : Reg) (imm : Int)
  | d (rt rn : Reg) (imm : Nat)
  | cb (rt : Reg) (imm : Int)
  | im (rd : Reg) (imm : Nat) (shiftCode : Nat) (shiftAmount : Nat)
  | b (sign : Bool) (magnitude : Nat) (offset : Int)
  | none
deriving DecidableEq, Repr

/-- One decoded instruction: a constructor for each row of the opcode table, with the operands its format
gives (30_encoding.md R39 to R45). Every field of the format is kept, also the one the operand list leaves
out (45_r_format.md R88); the two bits of format D that no field uses are not (R41). `sign` true is sign
bit 1. `brk` is BREAK. -/
inductive Instr where
  | b (sign : Bool) (magnitude : Nat)
  | cbz (rt : Reg) (imm : Int)
  | cbnz (rt : Reg) (imm : Int)
  | movz (rd : Reg) (imm shiftCode : Nat)
  | movk (rd : Reg) (imm shiftCode : Nat)
  | addi (rd rn : Reg) (imm : Int)
  | subi (rd rn : Reg) (imm : Int)
  | and (rd rn rm : Reg) (shamt : BitVec 6)
  | add (rd rn rm : Reg) (shamt : BitVec 6)
  | orr (rd rn rm : Reg) (shamt : BitVec 6)
  | sub (rd rn rm : Reg) (shamt : BitVec 6)
  | lsr (rd rn rm : Reg) (shamt : BitVec 6)
  | lsl (rd rn rm : Reg) (shamt : BitVec 6)
  | asr (rd rn rm : Reg) (shamt : BitVec 6)
  | eor (rd rn rm : Reg) (shamt : BitVec 6)
  | stur (rt rn : Reg) (imm : Nat)
  | ldur (rt rn : Reg) (imm : Nat)
  | brk
deriving DecidableEq, Repr

/-- What the decoder reads from a line, before the address and the length are attached: the four outcomes of
40_matcher_dispatch.md R59, and the rejection by name of a length no line has (10_state.md R22). -/
inductive LineMeaning where
  /-- `L` above 32: outside the block's domain (10_state.md R22, decision D25) -/
  | outOfDomain
  /-- fewer than 6 bits (40_matcher_dispatch.md R60) -/
  | tooShort
  /-- a key matched (R61 to R65) -/
  | instr (i : Instr)
  /-- a full word that matches no key, as a signed number (R66) -/
  | data (value : Int)
  /-- 6 to 31 bits that match no key: the attempted key's length and its bits as a number (R67) -/
  | unknown (prefixLen : Nat) (pfx : Nat)
deriving DecidableEq, Repr

end Sys2Proof
end

