-- ==== Sys2Proof/WellFormed.lean ====
section
/-! DEFINITION. Which instructions and operand records the encodings admit: every number within the range
its field gives (30_encoding.md R50). Register specifiers and `shamt` are in range by their type. -/

namespace Sys2Proof

/-- The range of a field read as an `n`-bit two's-complement number (00_scope.md R12, `sext_N`). -/
def fitsSigned (n : Nat) (x : Int) : Bool :=
  decide (-(2 ^ (n - 1) : Int) ≤ x) && decide (x < (2 ^ (n - 1) : Int))

/-- The range of a field read as an `n`-bit unsigned number. -/
def fitsUnsigned (n : Nat) (v : Nat) : Bool := decide (v < 2 ^ n)

/-- The instruction's numbers lie in the ranges of 30_encoding.md R50. -/
def Instr.wf : Instr → Bool
  | .b _ magnitude => fitsUnsigned 25 magnitude
  | .cbz _ imm => fitsSigned 19 imm
  | .cbnz _ imm => fitsSigned 19 imm
  | .movz _ imm shiftCode => fitsUnsigned 16 imm && fitsUnsigned 2 shiftCode
  | .movk _ imm shiftCode => fitsUnsigned 16 imm && fitsUnsigned 2 shiftCode
  | .addi _ _ imm => fitsSigned 12 imm
  | .subi _ _ imm => fitsSigned 12 imm
  | .and _ _ _ _ => true
  | .add _ _ _ _ => true
  | .orr _ _ _ _ => true
  | .sub _ _ _ _ => true
  | .lsr _ _ _ _ => true
  | .lsl _ _ _ _ => true
  | .asr _ _ _ _ => true
  | .eor _ _ _ _ => true
  | .stur _ _ imm => fitsUnsigned 9 imm
  | .ldur _ _ imm => fitsUnsigned 9 imm
  | .brk => true

/-- The operand record's numbers lie in the ranges of 10_state.md R19, each field by itself. -/
def Operands.inRange : Operands → Bool
  | .r _ _ _ _ => true
  | .i _ _ imm => fitsSigned 12 imm
  | .d _ _ imm => fitsUnsigned 9 imm
  | .cb _ imm => fitsSigned 19 imm
  | .im _ imm shiftCode shiftAmount =>
      fitsUnsigned 16 imm && fitsUnsigned 2 shiftCode && decide (shiftAmount ∈ [0, 16, 32, 48])
  | .b _ magnitude offset =>
      fitsUnsigned 25 magnitude && decide (-(2 ^ 25 - 1 : Int) ≤ offset) && decide (offset ≤ (2 ^ 25 - 1 : Int))
  | .none => true

/-- The operand shape a format tag calls for (10_state.md R19). -/
def Operands.hasShape : Operands → Format → Bool
  | .r _ _ _ _, f => f == .r
  | .i _ _ _, f => f == .i
  | .d _ _ _, f => f == .d
  | .cb _ _, f => f == .cb
  | .im _ _ _ _, f => f == .im
  | .b _ _ _, f => f == .b
  | .none, f => f == .brk || f == .nop

end Sys2Proof
end

