-- ==== Sys2Proof/Decode.lean ====
section
/-! DEFINITION. The opcode table, the matcher, the field extraction, the decoder of a line and the encoder
(30_encoding.md, 40_matcher_dispatch.md R60 to R67, and the extraction rules of 41 to 47). -/

namespace Sys2Proof

/-! ### Bits and numbers -/

/-- `word[hi:lo]` read as an unsigned integer (00_scope.md R12). -/
def slice (word : Word) (hi lo : Nat) : Nat := word.toNat / 2 ^ lo % 2 ^ (hi + 1 - lo)

/-- `sext_N` (00_scope.md R12, 30_encoding.md R50): the signed reading of an `n`-bit field. -/
def sext (n v : Nat) : Int := if 2 ^ (n - 1) ≤ v then (v : Int) - 2 ^ n else v

/-- The sign-magnitude reading of the B offset (30_encoding.md R52); minus zero is zero. -/
def signMagnitude (sign : Bool) (magnitude : Nat) : Int := if sign then -(magnitude : Int) else magnitude

/-- The shift amount of a shift code (30_encoding.md R51). -/
def shiftAmountOf (shiftCode : Nat) : Nat := 16 * shiftCode

/-! ### The opcode table -/

/-- The 18 rows of 30_encoding.md R47, in its order. -/
def table : List Row :=
  [⟨6, 0b000101, .b, .b⟩,
   ⟨8, 0b10110100, .cbz, .cb⟩,
   ⟨8, 0b10110101, .cbnz, .cb⟩,
   ⟨9, 0b110100101, .movz, .im⟩,
   ⟨9, 0b111100101, .movk, .im⟩,
   ⟨10, 0b1001000100, .addi, .i⟩,
   ⟨10, 0b1101000100, .subi, .i⟩,
   ⟨11, 0b10001010000, .and, .r⟩,
   ⟨11, 0b10001011000, .add, .r⟩,
   ⟨11, 0b10101010000, .orr, .r⟩,
   ⟨11, 0b11001011000, .sub, .r⟩,
   ⟨11, 0b11010011010, .lsr, .r⟩,
   ⟨11, 0b11010011011, .lsl, .r⟩,
   ⟨11, 0b11010011100, .asr, .r⟩,
   ⟨11, 0b11101010000, .eor, .r⟩,
   ⟨11, 0b11111000000, .stur, .d⟩,
   ⟨11, 0b11111000010, .ldur, .d⟩,
   ⟨32, 0b11111110110111101111111111100111, .brk, .brk⟩]

/-- The mask of a row: as many leading ones as its key is long (30_encoding.md R47). -/
def Row.mask (r : Row) : Word := BitVec.ofNat 32 ((2 ^ r.len - 1) * 2 ^ (32 - r.len))

/-- The row's key, left-aligned in a word (30_encoding.md R47, column `match`). -/
def Row.pattern (r : Row) : Word := BitVec.ofNat 32 (r.key * 2 ^ (32 - r.len))

/-- `TABLE(n, k)` (30_encoding.md R48). -/
def lookup (n k : Nat) : Option Descriptor :=
  (table.find? fun r => r.len == n && r.key == k).map Row.desc

/-! ### The matcher -/

/-- `MIN_LEN`: the shortest line that can hold an opcode (00_scope.md R10). -/
def minLen : Nat := 6

/-- The longest key a line shorter than a word can hold (40_matcher_dispatch.md R67). -/
def longestPartialKey : Nat := 11

/-- `TRIAL_ORDER` (00_scope.md R10, 40_matcher_dispatch.md R61). -/
def trialOrder : List Nat := [32, 11, 10, 9, 8, 6]

/-- The candidate key of a trial: the leftmost `n` bits of the word (40_matcher_dispatch.md R61). -/
def candidateKey (word : Word) (n : Nat) : Nat := word.toNat / 2 ^ (32 - n)

/-- One trial of the matcher: made only if the line has `n` bits (40_matcher_dispatch.md R62). -/
def tryLength (word : Word) (len n : Nat) : Option (Nat × Descriptor) :=
  if n ≤ len then (lookup n (candidateKey word n)).map fun d => (n, d) else none

/-- The matcher (40_matcher_dispatch.md R61): the first length of the trial order at which a row exists, with
its descriptor. -/
def matchLine (word : Word) (len : Nat) : Option (Nat × Descriptor) :=
  trialOrder.findSome? (tryLength word len)

/-! ### The fields of the formats (30_encoding.md R39 to R44) -/

def fieldRd (word : Word) : Reg := BitVec.ofNat 5 (slice word 4 0)
def fieldRt (word : Word) : Reg := BitVec.ofNat 5 (slice word 4 0)
def fieldRn (word : Word) : Reg := BitVec.ofNat 5 (slice word 9 5)
def fieldRm (word : Word) : Reg := BitVec.ofNat 5 (slice word 20 16)
def fieldShamt (word : Word) : BitVec 6 := BitVec.ofNat 6 (slice word 15 10)
/-- The signed 12-bit immediate of format I (R40, R84). -/
def fieldImmI (word : Word) : Int := sext 12 (slice word 21 10)
/-- The unsigned 9-bit immediate of format D (R41, R98). -/
def fieldImmD (word : Word) : Nat := slice word 20 12
/-- The signed 19-bit immediate of format CB (R42, R76). -/
def fieldImmCB (word : Word) : Int := sext 19 (slice word 23 5)
/-- The unsigned 16-bit immediate of format IM (R43, R80). -/
def fieldImmIM (word : Word) : Nat := slice word 20 5
/-- The shift code of format IM (R43, R51). -/
def fieldShiftCode (word : Word) : Nat := slice word 22 21
/-- The sign bit of format B (R44, R73). -/
def fieldSign (word : Word) : Bool := slice word 25 25 == 1
/-- The magnitude of format B (R44, R73). -/
def fieldMagnitude (word : Word) : Nat := slice word 24 0

/-! ### Operand records -/

/-- `OpsIM` with the shift amount its code gives (43_im_format.md R80). -/
def opsIM (rd : Reg) (imm shiftCode : Nat) : Operands := .im rd imm shiftCode (shiftAmountOf shiftCode)

/-- `OpsB` with the offset its sign and magnitude give (41_b_format.md R73). -/
def opsB (sign : Bool) (magnitude : Nat) : Operands := .b sign magnitude (signMagnitude sign magnitude)

/-- The dispatcher's extraction, by format tag alone (40_matcher_dispatch.md R64): one arm a tag, the
unreachable NOP arm among them (47_break_nop_data.md R104). -/
def extract : Format → Word → Operands
  | .b, w => opsB (fieldSign w) (fieldMagnitude w)
  | .cb, w => .cb (fieldRt w) (fieldImmCB w)
  | .im, w => opsIM (fieldRd w) (fieldImmIM w) (fieldShiftCode w)
  | .i, w => .i (fieldRd w) (fieldRn w) (fieldImmI w)
  | .r, w => .r (fieldRd w) (fieldRn w) (fieldRm w) (fieldShamt w)
  | .d, w => .d (fieldRt w) (fieldRn w) (fieldImmD w)
  | .brk, _ => .none
  | .nop, _ => .none

/-- The instruction a matched mnemonic makes of a word: the mnemonic with the fields of its format. -/
def instrOf : Mnemonic → Word → Instr
  | .b, w => .b (fieldSign w) (fieldMagnitude w)
  | .cbz, w => .cbz (fieldRt w) (fieldImmCB w)
  | .cbnz, w => .cbnz (fieldRt w) (fieldImmCB w)
  | .movz, w => .movz (fieldRd w) (fieldImmIM w) (fieldShiftCode w)
  | .movk, w => .movk (fieldRd w) (fieldImmIM w) (fieldShiftCode w)
  | .addi, w => .addi (fieldRd w) (fieldRn w) (fieldImmI w)
  | .subi, w => .subi (fieldRd w) (fieldRn w) (fieldImmI w)
  | .and, w => .and (fieldRd w) (fieldRn w) (fieldRm w) (fieldShamt w)
  | .add, w => .add (fieldRd w) (fieldRn w) (fieldRm w) (fieldShamt w)
  | .orr, w => .orr (fieldRd w) (fieldRn w) (fieldRm w) (fieldShamt w)
  | .sub, w => .sub (fieldRd w) (fieldRn w) (fieldRm w) (fieldShamt w)
  | .lsr, w => .lsr (fieldRd w) (fieldRn w) (fieldRm w) (fieldShamt w)
  | .lsl, w => .lsl (fieldRd w) (fieldRn w) (fieldRm w) (fieldShamt w)
  | .asr, w => .asr (fieldRd w) (fieldRn w) (fieldRm w) (fieldShamt w)
  | .eor, w => .eor (fieldRd w) (fieldRn w) (fieldRm w) (fieldShamt w)
  | .stur, w => .stur (fieldRt w) (fieldRn w) (fieldImmD w)
  | .ldur, w => .ldur (fieldRt w) (fieldRn w) (fieldImmD w)
  | .brk, _ => .brk

/-! ### The decoder -/

/-- What a line of `len` bits, left-aligned in `word`, means (40_matcher_dispatch.md R60, R61, R66, R67, in
that order), total on every length: a length above 32 is rejected by name (10_state.md R22). -/
def decodeLine (word : Word) (len : Nat) : LineMeaning :=
  if 32 < len then .outOfDomain
  else if len < minLen then .tooShort
  else match matchLine word len with
    | some (_, d) => .instr (instrOf d.mnemonic word)
    | none =>
      if len = 32 then .data (sext 32 (slice word 31 0))
      else .unknown (min len longestPartialKey) (candidateKey word (min len longestPartialKey))

/-- The instruction a full word spells, if a key matches. -/
def decodeWord (word : Word) : Option Instr :=
  match decodeLine word 32 with
  | .instr i => some i
  | _ => none

/-! ### The encoder -/

/-- A word from the key of a row and the bits that follow it. -/
def place (len key rest : Nat) : Word := BitVec.ofNat 32 (key * 2 ^ (32 - len) + rest)

/-- The `n`-bit pattern of a number, two's complement for a negative one (44_i_format.md R87). -/
def fieldOf (n : Nat) (x : Int) : Nat := (x % (2 ^ n : Int)).toNat

/-- The bits after the key, format R (30_encoding.md R39). -/
def restR (rd rn rm : Reg) (shamt : BitVec 6) : Nat :=
  rm.toNat * 2 ^ 16 + shamt.toNat * 2 ^ 10 + rn.toNat * 2 ^ 5 + rd.toNat

/-- The bits after the key, format I (30_encoding.md R40). -/
def restI (rd rn : Reg) (imm : Int) : Nat := fieldOf 12 imm * 2 ^ 10 + rn.toNat * 2 ^ 5 + rd.toNat

/-- The bits after the key, format D (30_encoding.md R41); the two bits no field uses are written 0 (log
entry 14). -/
def restD (rt rn : Reg) (imm : Nat) : Nat := fieldOf 9 imm * 2 ^ 12 + rn.toNat * 2 ^ 5 + rt.toNat

/-- The bits after the key, format CB (30_encoding.md R42). -/
def restCB (rt : Reg) (imm : Int) : Nat := fieldOf 19 imm * 2 ^ 5 + rt.toNat

/-- The bits after the key, format IM (30_encoding.md R43). -/
def restIM (rd : Reg) (imm shiftCode : Nat) : Nat :=
  fieldOf 2 shiftCode * 2 ^ 21 + fieldOf 16 imm * 2 ^ 5 + rd.toNat

/-- The bits after the key, format B (30_encoding.md R44). -/
def restB (sign : Bool) (magnitude : Nat) : Nat := sign.toNat * 2 ^ 25 + fieldOf 25 magnitude

/-- The word of an instruction, from the layouts of 30_encoding.md R39 to R45 and the keys of R47. -/
def encode : Instr → Word
  | .b sign magnitude => place 6 0b000101 (restB sign magnitude)
  | .cbz rt imm => place 8 0b10110100 (restCB rt imm)
  | .cbnz rt imm => place 8 0b10110101 (restCB rt imm)
  | .movz rd imm shiftCode => place 9 0b110100101 (restIM rd imm shiftCode)
  | .movk rd imm shiftCode => place 9 0b111100101 (restIM rd imm shiftCode)
  | .addi rd rn imm => place 10 0b1001000100 (restI rd rn imm)
  | .subi rd rn imm => place 10 0b1101000100 (restI rd rn imm)
  | .and rd rn rm shamt => place 11 0b10001010000 (restR rd rn rm shamt)
  | .add rd rn rm shamt => place 11 0b10001011000 (restR rd rn rm shamt)
  | .orr rd rn rm shamt => place 11 0b10101010000 (restR rd rn rm shamt)
  | .sub rd rn rm shamt => place 11 0b11001011000 (restR rd rn rm shamt)
  | .lsr rd rn rm shamt => place 11 0b11010011010 (restR rd rn rm shamt)
  | .lsl rd rn rm shamt => place 11 0b11010011011 (restR rd rn rm shamt)
  | .asr rd rn rm shamt => place 11 0b11010011100 (restR rd rn rm shamt)
  | .eor rd rn rm shamt => place 11 0b11101010000 (restR rd rn rm shamt)
  | .stur rt rn imm => place 11 0b11111000000 (restD rt rn imm)
  | .ldur rt rn imm => place 11 0b11111000010 (restD rt rn imm)
  | .brk => place 32 0b11111110110111101111111111100111 0

/-- The mnemonic of an instruction. -/
def Instr.mnemonic : Instr → Mnemonic
  | .b _ _ => .b
  | .cbz _ _ => .cbz
  | .cbnz _ _ => .cbnz
  | .movz _ _ _ => .movz
  | .movk _ _ _ => .movk
  | .addi _ _ _ => .addi
  | .subi _ _ _ => .subi
  | .and _ _ _ _ => .and
  | .add _ _ _ _ => .add
  | .orr _ _ _ _ => .orr
  | .sub _ _ _ _ => .sub
  | .lsr _ _ _ _ => .lsr
  | .lsl _ _ _ _ => .lsl
  | .asr _ _ _ _ => .asr
  | .eor _ _ _ _ => .eor
  | .stur _ _ _ => .stur
  | .ldur _ _ _ => .ldur
  | .brk => .brk

/-! ### The host's numbering of a row's bits -/

/-- The full word whose low `nbits` bits are those of `w`, the rest 0. -/
def tableWord (nbits w : Nat) : Word := BitVec.ofNat 32 (w % 2 ^ nbits)

/-- The instruction the decoder reads from a table row's word: the block takes whole words
(20_memory.md R27), so no byte order enters. More than 32 bits is no word of the block. -/
def decodeTableWord (nbits w : Nat) : Option Instr :=
  if nbits ≤ 32 then decodeWord (tableWord nbits w) else none

end Sys2Proof
end

