-- ==== Sys2Proof/Config.lean ====
section
/-! DEFINITION. What an implementation fixes (00_scope.md R10), and the one free value of the block: the
operands of a matched line that is shorter than a word (40_matcher_dispatch.md R65). -/

namespace Sys2Proof

/-- `ADDR_BASE` (00_scope.md R10, 10_state.md R24): the address of the first line after reset. -/
def Config.addrBase : Addr := 96

/-- `ADDR_STEP` (00_scope.md R10): what the address goes up by after every line. -/
def Config.addrStep : Addr := 4

/-- The operand fields of the result record (10_state.md R19), as names for the free values. -/
inductive OperandField where
  | rd | rn | rm | rt | shamt | imm | shiftCode | shiftAmount | sign | magnitude | offset
deriving DecidableEq, Repr

/-- FREE VALUE (40_matcher_dispatch.md R65, log entries 4 and 5): the bits an operand field of a matched
line shorter than 32 bits is reported with. It has no body, so nothing can be proved of its value. It is a
constant applied to the field, to the word on the port and to the line's length, because the result of a
line is a function of `(word, L, addr)` (R69 b) in which the address is transparent (R69 c), and because the
bits beyond the line's end may reach the operands and nothing else (R69 d). -/
opaque Config.freeField (field : OperandField) (word : Word) (len : Nat) : Word

/-- `BYTE_ORDER` (20_memory.md R27): left open by the spec, so an argument wherever a word is built from
bytes, and no constant. -/
inductive ByteOrder where
  /-- the byte at the lowest address is the most significant -/
  | big
  /-- the byte at the lowest address is the least significant -/
  | little
deriving DecidableEq, Repr

end Sys2Proof
end

