-- ==== Sys2Proof/Machine/State.lean ====
section
/-! DEFINITION. The state of the block, the ports it is driven by, the result record it emits, the reasons it
can stop, and the state after reset. -/

namespace Sys2Proof.Machine

/-- The result of one decode (10_state.md R19). Lengths, and the attempted key of UNKNOWN read as a number,
are counts; `value` is a signed integer. -/
inductive Result where
  | instr (addr : Addr) (mnemonic : Mnemonic) (format : Format) (matchLen : Nat) (operandsValid : Bool)
      (operands : Operands)
  | data (addr : Addr) (value : Int)
  | tooShort (addr : Addr) (len : Nat)
  | unknown (addr : Addr) (len : Nat) (prefixLen : Nat) (pfx : Nat)
deriving DecidableEq, Repr

/-- One line on the input ports (10_state.md R22): `word`, left-aligned, and `L` on the flat 6-bit port,
whose values 33 to 63 are outside the domain. -/
structure Line where
  word : Word
  len : BitVec 6
deriving DecidableEq, Repr

/-- What the environment drives in one step: the reset input (70_reset_and_hazards.md R129) and the line it
presents, if it presents one (60_exceptions.md R127). -/
structure Sample where
  rst : Bool
  line : Option Line
deriving DecidableEq, Repr

/-- What a step finds on the ports. -/
inductive Event where
  /-- the environment drives nothing more (40_matcher_dispatch.md R71) -/
  | quiet
  /-- reset is asserted (70_reset_and_hazards.md R129) -/
  | reset
  /-- no line is presented (60_exceptions.md R127) -/
  | idle
  /-- a line is presented -/
  | line (line : Line)
deriving DecidableEq, Repr

/-- Why the machine stops with a fault. There is no constructor: the block has no fault (60_exceptions.md
R115, R122; 93_implementation_defined.md section 1: "Nothing in this block is treated as `fault` or `stuck`"),
so nobody raises one (safe). -/
inductive Fault where
deriving DecidableEq, Repr

/-- Why an input is given no meaning. -/
inductive Refusal where
  /-- raised by `exec` for an instruction without a meaning; no arm does so in this model (safe) -/
  | notModelled (mnemonic : String)
  /-- raised by the step for `L` of 33 to 63 on the 6-bit port: outside the domain, "a model refuses them"
  (10_state.md R22) (safe: the spec claims nothing there) -/
  | lengthOutOfDomain (len : BitVec 6)
  /-- raised by the text binding, never by a step, for a character that is no binary digit and no space
  (30_encoding.md R38, 60_exceptions.md R118) (safe) -/
  | nonBinaryCharacter
  /-- raised by the text binding, never by a step, for a line of more than 32 digits (30_encoding.md R38,
  60_exceptions.md R118) (safe) -/
  | lineTooLong
deriving DecidableEq, Repr

/-- The state: the address counter, which is all the spec gives the machine (10_state.md R15, R24), and the
model's two fields for the environment: what it will drive on the ports, step by step, and the results it has
been handed, oldest first (log entries 1 and 2). -/
structure State where
  addrCtr : Addr
  input : List Sample
  output : List Result
deriving DecidableEq, Repr

/-- The machine right after reset (10_state.md R24, 70_reset_and_hazards.md R129, R130): the counter at 96,
nothing presented yet, no result emitted. -/
def State.reset : State where
  addrCtr := Config.addrBase
  input := []
  output := []

end Sys2Proof.Machine
end

