-- ==== Sys2Proof/Machine/Operands.lean ====
section
/-! DEFINITION. The operands a result carries: exact for a full word, free for a shorter line; the operand
list of each format; and the decoder core's whole function, `Decode`. -/

namespace Sys2Proof.Machine

/-- `L` is within the domain of the block, 0 to 32 (10_state.md R22). -/
def Line.inDomain (ln : Line) : Bool := decide (ln.len.toNat ≤ 32)

/-- The line is a full word, `L` = 32; it is what `operands_valid` says (10_state.md R19). -/
def Line.full (ln : Line) : Bool := ln.len.toNat == 32

/-- The line of a word and a length of the domain. -/
def Line.of (word : Word) (len : Fin 33) : Line := ⟨word, BitVec.ofNat 6 len.val⟩

/-- A free register specifier. -/
def freeReg (f : OperandField) (word : Word) (len : Nat) : Reg :=
  (Config.freeField f word len).setWidth 5

/-- A free `n`-bit field read as unsigned. -/
def freeNat (n : Nat) (f : OperandField) (word : Word) (len : Nat) : Nat :=
  ((Config.freeField f word len).setWidth n).toNat

/-- A free `n`-bit field read as two's complement. -/
def freeInt (n : Nat) (f : OperandField) (word : Word) (len : Nat) : Int :=
  ((Config.freeField f word len).setWidth n).toInt

/-- A free sign bit. -/
def freeSign (f : OperandField) (word : Word) (len : Nat) : Bool := (Config.freeField f word len).getLsbD 25

/-- Operands of the same shape with EVERY field replaced by a free value of its type
(40_matcher_dispatch.md R65). The shift amount and the offset are free by themselves, not computed from the
free code, sign or magnitude (log entry 5). -/
def freeOperands (word : Word) (len : Nat) : Operands → Operands
  | .r _ _ _ _ =>
      .r (freeReg .rd word len) (freeReg .rn word len) (freeReg .rm word len)
        ((Config.freeField .shamt word len).setWidth 6)
  | .i _ _ _ => .i (freeReg .rd word len) (freeReg .rn word len) (freeInt 12 .imm word len)
  | .d _ _ _ => .d (freeReg .rt word len) (freeReg .rn word len) (freeNat 9 .imm word len)
  | .cb _ _ => .cb (freeReg .rt word len) (freeInt 19 .imm word len)
  | .im _ _ _ _ =>
      .im (freeReg .rd word len) (freeNat 16 .imm word len) (freeNat 2 .shiftCode word len)
        (shiftAmountOf (freeNat 2 .shiftAmount word len))
  | .b _ _ _ =>
      .b (freeSign .sign word len) (freeNat 25 .magnitude word len)
        (signMagnitude (freeSign .offset word len) (freeNat 25 .offset word len))
  | .none => .none

/-- The operands a matched line is reported with: the extracted ones if the line is a full word, free ones if
it is shorter (40_matcher_dispatch.md R65). -/
def reportedOperands (word : Word) (len : Nat) (exact : Operands) : Operands :=
  if len = 32 then exact else freeOperands word len exact

/-- `Decode(word, L, addr)` (40_matcher_dispatch.md R59, R68): the decoder core alone, a total function on
the domain, with any address (20_memory.md R28). -/
def decode (word : Word) (len : Fin 33) (addr : Addr) : Result :=
  if len.val < minLen then .tooShort addr len.val
  else match matchLine word len.val with
    | some (n, d) =>
        .instr addr d.mnemonic d.format n (len.val == 32)
          (reportedOperands word len.val (extract d.format word))
    | none =>
      if len.val = 32 then .data addr (sext 32 (slice word 31 0))
      else
        .unknown addr len.val (min len.val longestPartialKey)
          (candidateKey word (min len.val longestPartialKey))

/-- One operand as the operand lists of 30_encoding.md R56 name them. -/
inductive Operand where
  | reg (r : Reg)
  | imm (value : Int)
  | mem (base : Reg) (offset : Int)
  | lsl (amount : Nat)
deriving DecidableEq, Repr

/-- The mnemonics of the shift group (45_r_format.md R88). -/
def isShift : Mnemonic → Bool
  | .lsr | .lsl | .asr => true
  | .b | .cbz | .cbnz | .movz | .movk | .addi | .subi | .and | .add | .orr | .sub | .eor | .stur | .ldur
  | .brk => false

/-- The operand list (30_encoding.md R56): within format R the mnemonic decides which three of the four
fields are operands (45_r_format.md R88). -/
def operandList (m : Mnemonic) : Operands → List Operand
  | .r rd rn rm shamt => if isShift m then [.reg rd, .reg rn, .imm shamt.toNat] else [.reg rd, .reg rn, .reg rm]
  | .i rd rn imm => [.reg rd, .reg rn, .imm imm]
  | .d rt rn imm => [.reg rt, .mem rn imm]
  | .cb rt imm => [.reg rt, .imm imm]
  | .im rd imm _ shiftAmount => [.reg rd, .imm imm, .lsl shiftAmount]
  | .b _ _ offset => [.imm offset]
  | .none => []

end Sys2Proof.Machine
end

