-- ==== Sys2Proof/Machine/Ops.lean ====
section
/-! DEFINITION. The shared operations over the state: sampling the ports, taking a line, emitting a result,
raising a condition, reset and idling. -/

namespace Sys2Proof.Machine

/-- What stands on the ports in this step. An asserted reset comes first: while it is asserted no line is
accepted (70_reset_and_hazards.md R129). -/
def State.event (s : State) : Event :=
  match s.input with
  | [] => .quiet
  | p :: _ =>
    if p.rst then .reset
    else match p.line with
      | none => .idle
      | some ln => .line ln

/-- The environment goes on to what it drives next. -/
def State.nextSample (s : State) : State := { s with input := s.input.tail }

/-- The sequencer's advance (40_matcher_dispatch.md R70, 10_state.md R16): plus 4, modulo 2^32. -/
def State.advance (s : State) : State := { s with addrCtr := s.addrCtr + Config.addrStep }

/-- The environment is handed a result, after all earlier ones (20_memory.md R32 a). -/
def State.hand (s : State) (r : Result) : State := { s with output := s.output ++ [r] }

/-- The state after a line has been answered by `r`: the counter advanced, the line gone, the result out, in
one transition (40_matcher_dispatch.md R70, 70_reset_and_hazards.md R134). -/
def State.emit (s : State) (r : Result) : State := (s.advance.hand r).nextSample

/-- The step of a line (40_matcher_dispatch.md R70), whatever the outcome: the result is made from the line
and the address before the step. A length outside the domain is refused (10_state.md R22). Where no line is
presented nothing happens: idling changes no state (60_exceptions.md R127). That the line need not spell the
instruction whose meaning answers it is a DESIGN CHOICE (log entry 9); in a step it always does. -/
def answerLine (s : State) (result : Line → Addr → Result) : Host.Outcome State Fault Refusal :=
  match s.event with
  | .line ln =>
      if ln.inDomain then .next (s.emit (result ln s.addrCtr)) else .refused (.lengthOutOfDomain ln.len)
  | .quiet | .reset | .idle => .next s

/-- The answer to a matched line (40_matcher_dispatch.md R64, R65): the address, the mnemonic, the format,
the length at which the key matched, `operands_valid` = (`L` = 32), and the operands. -/
def answerInstr (s : State) (m : Mnemonic) (f : Format) (matchLen : Nat) (exact : Operands) :
    Host.Outcome State Fault Refusal :=
  answerLine s fun ln addr =>
    .instr addr m f matchLen ln.full (reportedOperands ln.word ln.len.toNat exact)

/-- RAISING A CONDITION (60_exceptions.md R115, R122), the block's only exception: the condition is returned
as the line's result and nothing else happens: no state is saved, no handler runs, the counter advances as
after any line. There is no return from it (R123). -/
def raiseCondition (s : State) (condition : Line → Addr → Result) : Host.Outcome State Fault Refusal :=
  answerLine s condition

/-- TOO_SHORT (60_exceptions.md R116): the address and the length. -/
def raiseTooShort (s : State) : Host.Outcome State Fault Refusal :=
  raiseCondition s fun ln addr => .tooShort addr ln.len.toNat

/-- UNKNOWN (60_exceptions.md R117): the address, the length, and the attempted key. -/
def raiseUnknown (prefixLen pfx : Nat) (s : State) : Host.Outcome State Fault Refusal :=
  raiseCondition s fun ln addr => .unknown addr ln.len.toNat prefixLen pfx

/-- The data word (47_break_nop_data.md R105): no condition. -/
def answerData (value : Int) (s : State) : Host.Outcome State Fault Refusal :=
  answerLine s fun _ addr => .data addr value

/-- A step with reset asserted (70_reset_and_hazards.md R129): the counter goes to `ADDR_BASE`; no line is
accepted, no result emitted, and the results already out stay out. -/
def State.takeReset (s : State) : State := { s.nextSample with addrCtr := Config.addrBase }

/-- The environment presents a line before anything else it was going to drive. -/
def State.present (s : State) (ln : Line) : State := { s with input := ⟨false, some ln⟩ :: s.input }

end Sys2Proof.Machine
end

