-- ==== Sys2Proof/Machine/FormatB.lean ====
section
/-! DEFINITION. The meaning of the instruction of format B (41_b_format.md). -/

namespace Sys2Proof.Machine

/-- B (R74). The branch is not taken. -/
def execB (sign : Bool) (magnitude : Nat) (s : State) : Host.Outcome State Fault Refusal :=
  answerInstr s .b .b 6 (opsB sign magnitude)

end Sys2Proof.Machine
end

