-- ==== Sys2Proof/Machine/FormatBreak.lean ====
section
/-! DEFINITION. The meaning of BREAK (47_break_nop_data.md). -/

namespace Sys2Proof.Machine

/-- BREAK (R102, R103): a result without operands, `operands_valid` always 1; nothing halts and nothing
remembers it. -/
def execBrk (s : State) : Host.Outcome State Fault Refusal :=
  answerLine s fun _ addr => .instr addr .brk .brk 32 true .none

end Sys2Proof.Machine
end

