-- ==== Sys2Proof/Machine/FormatCB.lean ====
section
/-! DEFINITION. The meanings of the instructions of format CB (42_cb_format.md). No register is tested and no
branch is taken (R79). -/

namespace Sys2Proof.Machine

/-- CBZ (R77). -/
def execCbz (rt : Reg) (imm : Int) (s : State) : Host.Outcome State Fault Refusal :=
  answerInstr s .cbz .cb 8 (.cb rt imm)

/-- CBNZ (R78). -/
def execCbnz (rt : Reg) (imm : Int) (s : State) : Host.Outcome State Fault Refusal :=
  answerInstr s .cbnz .cb 8 (.cb rt imm)

end Sys2Proof.Machine
end

