-- ==== Sys2Proof/Machine/FormatD.lean ====
section
/-! DEFINITION. The meanings of the instructions of format D (46_d_format.md). No address is formed and no
memory touched (R98). -/

namespace Sys2Proof.Machine

/-- STUR (R99). -/
def execStur (rt rn : Reg) (imm : Nat) (s : State) : Host.Outcome State Fault Refusal :=
  answerInstr s .stur .d 11 (.d rt rn imm)

/-- LDUR (R100). -/
def execLdur (rt rn : Reg) (imm : Nat) (s : State) : Host.Outcome State Fault Refusal :=
  answerInstr s .ldur .d 11 (.d rt rn imm)

end Sys2Proof.Machine
end

