-- ==== Sys2Proof/Machine/FormatI.lean ====
section
/-! DEFINITION. The meanings of the instructions of format I (44_i_format.md). Nothing is added or
subtracted (00_scope.md R7). -/

namespace Sys2Proof.Machine

/-- ADDI (R85). -/
def execAddi (rd rn : Reg) (imm : Int) (s : State) : Host.Outcome State Fault Refusal :=
  answerInstr s .addi .i 10 (.i rd rn imm)

/-- SUBI (R86). -/
def execSubi (rd rn : Reg) (imm : Int) (s : State) : Host.Outcome State Fault Refusal :=
  answerInstr s .subi .i 10 (.i rd rn imm)

end Sys2Proof.Machine
end

