-- ==== Sys2Proof/Machine/FormatIM.lean ====
section
/-! DEFINITION. The meanings of the instructions of format IM (43_im_format.md). They differ in the mnemonic
only (R83); the immediate is not shifted (R51). -/

namespace Sys2Proof.Machine

/-- MOVZ (R81). -/
def execMovz (rd : Reg) (imm shiftCode : Nat) (s : State) : Host.Outcome State Fault Refusal :=
  answerInstr s .movz .im 9 (opsIM rd imm shiftCode)

/-- MOVK (R82). -/
def execMovk (rd : Reg) (imm shiftCode : Nat) (s : State) : Host.Outcome State Fault Refusal :=
  answerInstr s .movk .im 9 (opsIM rd imm shiftCode)

end Sys2Proof.Machine
end

