-- ==== Sys2Proof/Machine/FormatR.lean ====
section
/-! DEFINITION. The meanings of the instructions of format R (45_r_format.md). All four fields are reported;
`operandList` says which three are operands (R88). Nothing is computed of them (00_scope.md R7). -/

namespace Sys2Proof.Machine

/-- AND (R89). -/
def execAnd (rd rn rm : Reg) (shamt : BitVec 6) (s : State) : Host.Outcome State Fault Refusal :=
  answerInstr s .and .r 11 (.r rd rn rm shamt)

/-- ADD (R90). -/
def execAdd (rd rn rm : Reg) (shamt : BitVec 6) (s : State) : Host.Outcome State Fault Refusal :=
  answerInstr s .add .r 11 (.r rd rn rm shamt)

/-- ORR (R91). -/
def execOrr (rd rn rm : Reg) (shamt : BitVec 6) (s : State) : Host.Outcome State Fault Refusal :=
  answerInstr s .orr .r 11 (.r rd rn rm shamt)

/-- SUB (R92). -/
def execSub (rd rn rm : Reg) (shamt : BitVec 6) (s : State) : Host.Outcome State Fault Refusal :=
  answerInstr s .sub .r 11 (.r rd rn rm shamt)

/-- LSR (R93). -/
def execLsr (rd rn rm : Reg) (shamt : BitVec 6) (s : State) : Host.Outcome State Fault Refusal :=
  answerInstr s .lsr .r 11 (.r rd rn rm shamt)

/-- LSL (R94). -/
def execLsl (rd rn rm : Reg) (shamt : BitVec 6) (s : State) : Host.Outcome State Fault Refusal :=
  answerInstr s .lsl .r 11 (.r rd rn rm shamt)

/-- ASR (R95). -/
def execAsr (rd rn rm : Reg) (shamt : BitVec 6) (s : State) : Host.Outcome State Fault Refusal :=
  answerInstr s .asr .r 11 (.r rd rn rm shamt)

/-- EOR (R96). -/
def execEor (rd rn rm : Reg) (shamt : BitVec 6) (s : State) : Host.Outcome State Fault Refusal :=
  answerInstr s .eor .r 11 (.r rd rn rm shamt)

end Sys2Proof.Machine
end

