-- ==== Sys2Proof/Machine/Dispatch.lean ====
section
/-! DEFINITION. Which meaning each instruction has. -/

namespace Sys2Proof.Machine

/-- What the block does with the presented line when it spells the instruction `i` (00_scope.md R7). -/
def exec (i : Instr) (s : State) : Host.Outcome State Fault Refusal :=
  match i with
  | .b sign magnitude => Sys2Proof.Machine.execB sign magnitude s
  | .cbz rt imm => Sys2Proof.Machine.execCbz rt imm s
  | .cbnz rt imm => Sys2Proof.Machine.execCbnz rt imm s
  | .movz rd imm shiftCode => Sys2Proof.Machine.execMovz rd imm shiftCode s
  | .movk rd imm shiftCode => Sys2Proof.Machine.execMovk rd imm shiftCode s
  | .addi rd rn imm => Sys2Proof.Machine.execAddi rd rn imm s
  | .subi rd rn imm => Sys2Proof.Machine.execSubi rd rn imm s
  | .and rd rn rm shamt => Sys2Proof.Machine.execAnd rd rn rm shamt s
  | .add rd rn rm shamt => Sys2Proof.Machine.execAdd rd rn rm shamt s
  | .orr rd rn rm shamt => Sys2Proof.Machine.execOrr rd rn rm shamt s
  | .sub rd rn rm shamt => Sys2Proof.Machine.execSub rd rn rm shamt s
  | .lsr rd rn rm shamt => Sys2Proof.Machine.execLsr rd rn rm shamt s
  | .lsl rd rn rm shamt => Sys2Proof.Machine.execLsl rd rn rm shamt s
  | .asr rd rn rm shamt => Sys2Proof.Machine.execAsr rd rn rm shamt s
  | .eor rd rn rm shamt => Sys2Proof.Machine.execEor rd rn rm shamt s
  | .stur rt rn imm => Sys2Proof.Machine.execStur rt rn imm s
  | .ldur rt rn imm => Sys2Proof.Machine.execLdur rt rn imm s
  | .brk => Sys2Proof.Machine.execBrk s

end Sys2Proof.Machine
end

