-- ==== Sys2Proof/Machine/Step.lean ====
section
/-! DEFINITION. One step of the block, and how the host presents a word to it. -/

namespace Sys2Proof.Machine

/-- The step of a presented line (40_matcher_dispatch.md R70), by what the line means (R59). -/
def stepLine (ln : Line) (s : State) : Host.Outcome State Fault Refusal :=
  match decodeLine ln.word ln.len.toNat with
  | .outOfDomain => .refused (.lengthOutOfDomain ln.len)
  | .tooShort => raiseTooShort s
  | .instr i => exec i s
  | .data value => answerData value s
  | .unknown prefixLen pfx => raiseUnknown prefixLen pfx s

/-- One step: reset, an idle step, or a line. When the environment drives nothing more, nothing changes
(40_matcher_dispatch.md R71, 60_exceptions.md R127). -/
def step (s : State) : Host.Outcome State Fault Refusal :=
  match s.event with
  | .quiet => .next s
  | .reset => .next s.takeReset
  | .idle => .next s.nextSample
  | .line ln => stepLine ln s

/-- The state in which the environment presents, as a full word, the table row's word before anything else
(log entry 8). More than 32 bits is presented as a line out of the domain, as `decodeTableWord` refuses it. -/
def State.withFetchWord (s : State) (nbits w : Nat) : State :=
  s.present ⟨tableWord nbits w, if nbits ≤ 32 then 32 else 33⟩

end Sys2Proof.Machine
end

