-- ==== Sys2Proof/Machine/FlatPort.lean ====
section
/-! DEFINITION. The numbering of tags and mnemonics, and the result on a flat output port (10_state.md R20,
decisions D6 and D21). No step reads a code. -/

namespace Sys2Proof.Machine

/-- The `status` codes (10_state.md R20). -/
def Result.statusCode : Result → Nat
  | .instr .. => 0
  | .data .. => 1
  | .tooShort .. => 2
  | .unknown .. => 3

/-- The `format` codes (10_state.md R20). -/
def formatCode : Format → Nat
  | .r => 0 | .i => 1 | .d => 2 | .b => 3 | .cb => 4 | .im => 5 | .brk => 6 | .nop => 7

/-- The `mnemonic` codes (10_state.md R20). -/
def mnemonicCode : Mnemonic → Nat
  | .b => 0 | .cbz => 1 | .cbnz => 2 | .movz => 3 | .movk => 4 | .addi => 5 | .subi => 6 | .and => 7
  | .add => 8 | .orr => 9 | .sub => 10 | .lsr => 11 | .lsl => 12 | .asr => 13 | .eor => 14 | .stur => 15
  | .ldur => 16 | .brk => 17

/-- Every output field of the result record side by side, as numbers. A field the result's tag or the operand
shape does not carry is driven to 0 (10_state.md R20), which is each field's default here. -/
structure FlatResult where
  status : Nat := 0
  addr : Nat := 0
  mnemonic : Nat := 0
  format : Nat := 0
  matchLen : Nat := 0
  operandsValid : Nat := 0
  rd : Nat := 0
  rn : Nat := 0
  rm : Nat := 0
  rt : Nat := 0
  shamt : Nat := 0
  imm : Int := 0
  shiftCode : Nat := 0
  shiftAmount : Nat := 0
  sign : Nat := 0
  magnitude : Nat := 0
  offset : Int := 0
  value : Int := 0
  len : Nat := 0
  prefixLen : Nat := 0
  pfx : Nat := 0
deriving DecidableEq, Repr

/-- The operand fields on the flat port: those of the matched shape, the others 0 (10_state.md R20). On a matched
line shorter than a word the matched shape's fields are free, and that the other shapes' fields are still 0 there
is a DESIGN CHOICE (log entry 15): decision D21 does not cover them. -/
def flatOperands (f : FlatResult) : Operands → FlatResult
  | .r rd rn rm shamt => { f with rd := rd.toNat, rn := rn.toNat, rm := rm.toNat, shamt := shamt.toNat }
  | .i rd rn imm => { f with rd := rd.toNat, rn := rn.toNat, imm := imm }
  | .d rt rn imm => { f with rt := rt.toNat, rn := rn.toNat, imm := imm }
  | .cb rt imm => { f with rt := rt.toNat, imm := imm }
  | .im rd imm shiftCode shiftAmount =>
      { f with rd := rd.toNat, imm := imm, shiftCode := shiftCode, shiftAmount := shiftAmount }
  | .b sign magnitude offset =>
      { f with sign := sign.toNat, magnitude := magnitude, offset := offset }
  | .none => f

/-- A result on the flat port (10_state.md R20). -/
def Result.flat (r : Result) : FlatResult :=
  match r with
  | .instr addr m f matchLen valid ops =>
      flatOperands
        { status := r.statusCode, addr := addr.toNat, mnemonic := mnemonicCode m, format := formatCode f,
          matchLen := matchLen, operandsValid := valid.toNat } ops
  | .data addr value => { status := r.statusCode, addr := addr.toNat, value := value }
  | .tooShort addr len => { status := r.statusCode, addr := addr.toNat, len := len }
  | .unknown addr len prefixLen pfx =>
      { status := r.statusCode, addr := addr.toNat, len := len, prefixLen := prefixLen, pfx := pfx }

end Sys2Proof.Machine
end

