-- ==== Sys2Proof/Machine/InputBinding.lean ====
section
/-! DEFINITION. How an input from outside becomes a line on the ports: from text (30_encoding.md R38) and from
four bytes of a memory (20_memory.md R27). The step uses neither: the block sees the ports. -/

namespace Sys2Proof.Machine

/-- The bit of a binary digit, if the character is one. -/
def bitOf (c : Char) : Option Nat :=
  if c = '0' then some 0 else if c = '1' then some 1 else none

/-- `uint`: the number a string of digits spells, leftmost digit most significant (00_scope.md R12), or none
if a character is no binary digit. -/
def uintFrom (acc : Nat) : List Char → Option Nat
  | [] => some acc
  | c :: cs => (bitOf c).bind fun b => uintFrom (2 * acc + b) cs

/-- The line with every space removed; no other character is (30_encoding.md R38, decision D15). -/
def stripSpaces (cs : List Char) : List Char := cs.filter fun c => c != ' '

/-- `TextToPorts` (30_encoding.md R38): strip the spaces, refuse another character than `0` and `1`, refuse
more than 32 digits, left-align the rest with zeros after it. -/
def textToPorts (cs : List Char) : Except Refusal Line :=
  match uintFrom 0 (stripSpaces cs) with
  | none => .error .nonBinaryCharacter
  | some v =>
    if 32 < (stripSpaces cs).length then .error .lineTooLong
    else
      .ok ⟨BitVec.ofNat 32 (v * 2 ^ (32 - (stripSpaces cs).length)), BitVec.ofNat 6 (stripSpaces cs).length⟩

/-- The word four bytes make, lowest address first, under a given `BYTE_ORDER` (20_memory.md R27: an argument,
never assumed). -/
def wordOfBytes (order : ByteOrder) (b0 b1 b2 b3 : BitVec 8) : Word :=
  match order with
  | .big => b0 ++ b1 ++ b2 ++ b3
  | .little => b3 ++ b2 ++ b1 ++ b0

/-- A full word from four bytes as a line on the ports. -/
def lineOfBytes (order : ByteOrder) (b0 b1 b2 b3 : BitVec 8) : Line := ⟨wordOfBytes order b0 b1 b2 b3, 32⟩

end Sys2Proof.Machine
end

