-- ==== Sys2Proof/Machine/Render.lean ====
section
/-! DEFINITION. The canonical text of a result (30_encoding.md R57, 60_exceptions.md R119): the spec's choice
for test benches, no correctness contract. -/

namespace Sys2Proof.Machine

/-- The digits of a line: its leading `L` bits, leftmost first (30_encoding.md R38). -/
def digits (word : Word) (len : Nat) : List Char :=
  (List.range len).map fun p => if word.getLsbD (31 - p) then '1' else '0'

/-- Where the groups of a format end (30_encoding.md R57). NOP has no layout and no cut. -/
def groupLengths : Format → List Nat
  | .r => [11, 5, 6, 5, 5]
  | .i => [10, 12, 5, 5]
  | .d => [11, 9, 2, 5, 5]
  | .cb => [8, 19, 5]
  | .im => [9, 2, 16, 5]
  | .b => [6, 1, 25]
  | .brk => [32]
  | .nop => [32]

/-- The digits cut at the group boundaries, as far as they reach, one space between groups. -/
def cutGroups : List Nat → List Char → List Char
  | [], cs => cs
  | n :: ns, cs => if cs.length ≤ n then cs else cs.take n ++ ' ' :: cutGroups ns (cs.drop n)

/-- A number in decimal. -/
def decimal (v : Nat) : List Char := Nat.toDigits 10 v

/-- A signed number in decimal, a minus sign first when it is negative and nothing when it is not. -/
def signedDecimal (v : Int) : List Char := if v < 0 then '-' :: decimal v.natAbs else decimal v.natAbs

/-- A mnemonic as the opcode table spells it. -/
def mnemonicText : Mnemonic → List Char
  | .b => "B".toList | .cbz => "CBZ".toList | .cbnz => "CBNZ".toList | .movz => "MOVZ".toList
  | .movk => "MOVK".toList | .addi => "ADDI".toList | .subi => "SUBI".toList | .and => "AND".toList
  | .add => "ADD".toList | .orr => "ORR".toList | .sub => "SUB".toList | .lsr => "LSR".toList
  | .lsl => "LSL".toList | .asr => "ASR".toList | .eor => "EOR".toList | .stur => "STUR".toList
  | .ldur => "LDUR".toList | .brk => "BREAK".toList

/-- One operand. -/
def operandText : Operand → List Char
  | .reg r => 'R' :: decimal r.toNat
  | .imm v => '#' :: signedDecimal v
  | .mem base offset => "[R".toList ++ decimal base.toNat ++ ", #".toList ++ signedDecimal offset ++ "]".toList
  | .lsl amount => "LSL #".toList ++ decimal amount

/-- The operand list, a comma and a space between operands. -/
def operandListText : List Operand → List Char
  | [] => []
  | [o] => operandText o
  | o :: os => operandText o ++ ", ".toList ++ operandListText os

/-- The mnemonic and, where there are valid operands, a tab and the operand list. Operands that are not valid
are left out (95_test_vectors.md section 2; log entry 10). -/
def instrText (m : Mnemonic) (operandsValid : Bool) (ops : Operands) : List Char :=
  if operandsValid && !(operandList m ops).isEmpty then
    mnemonicText m ++ '\t' :: operandListText (operandList m ops)
  else mnemonicText m

/-- The line of a result as characters; the word and the length are the decoded line's, since a result does
not carry the raw bits. -/
def renderChars (word : Word) (len : Nat) : Result → List Char
  | .instr addr m f _ valid ops =>
      cutGroups (groupLengths f) (digits word len) ++ '\t' :: decimal addr.toNat ++ '\t' :: instrText m valid ops
  | .data addr value => digits word len ++ '\t' :: decimal addr.toNat ++ '\t' :: signedDecimal value
  | .tooShort addr n =>
      digits word len ++ '\t' :: decimal addr.toNat ++ '\t' :: "ERROR: line too short (".toList ++ decimal n
        ++ " bits)".toList
  | .unknown addr _ prefixLen _ =>
      digits word len ++ '\t' :: decimal addr.toNat ++ '\t' :: "ERROR: unknown opcode ".toList
        ++ digits word prefixLen

/-- The canonical text of the decode of a line. -/
def render (word : Word) (len : Nat) (r : Result) : String := String.ofList (renderChars word len r)

end Sys2Proof.Machine
end

