-- ==== Sys2Proof/Safety.lean ====
section
/-! DEFINITION. The terms the statements use: when a result is one the spec allows, when a state's labels and
results hold together, and when an input cannot be refused. -/

namespace Sys2Proof.Machine

/-- The address a result carries (10_state.md R19: every tag has one). -/
def Result.addr : Result → Addr
  | .instr addr _ _ _ _ _ => addr
  | .data addr _ => addr
  | .tooShort addr _ => addr
  | .unknown addr _ _ _ => addr

/-- The same result with another address label (40_matcher_dispatch.md R69 c). -/
def Result.relabel (addr : Addr) : Result → Result
  | .instr _ m f n valid ops => .instr addr m f n valid ops
  | .data _ value => .data addr value
  | .tooShort _ len => .tooShort addr len
  | .unknown _ len prefixLen pfx => .unknown addr len prefixLen pfx

/-- The result without its operands: what the bits beyond a line's end never influence (40_matcher_dispatch.md
R69 d). -/
def Result.withoutOperands : Result → Result
  | .instr addr m f n valid _ => .instr addr m f n valid .none
  | r => r

/-- The offset and the shift amount are the ones the other fields give (10_state.md R19). -/
def operandsExact : Operands → Bool
  | .im _ _ shiftCode shiftAmount => shiftAmount == shiftAmountOf shiftCode
  | .b sign magnitude offset => offset == signMagnitude sign magnitude
  | .r _ _ _ _ => true
  | .i _ _ _ => true
  | .d _ _ _ => true
  | .cb _ _ => true
  | .none => true

/-- Some row of the opcode table has this length, mnemonic and format. -/
def isRow (matchLen : Nat) (m : Mnemonic) (f : Format) : Bool :=
  table.any fun r => r.len == matchLen && r.desc == ⟨m, f⟩

/-- A result the spec allows (10_state.md R19): an INSTR names a row of the table, never NOP, its operands
have the format's shape and are in range, and are consistent when they are valid, and BREAK's are always valid
(47_break_nop_data.md R102); DATA is a signed 32-bit number that spells no instruction (R106); TOO_SHORT is of
0 to 5 bits (60_exceptions.md R116); UNKNOWN is of 6 to 31 bits with the attempted key of R117. -/
def Result.wf : Result → Bool
  | .instr _ m f n valid ops =>
      isRow n m f && f != .nop && ops.hasShape f && ops.inRange && (!valid || operandsExact ops)
        && (m != .brk || valid)
  | .data _ value => fitsSigned 32 value && (decodeWord (BitVec.ofInt 32 value)).isNone
  | .tooShort _ len => decide (len < 6)
  | .unknown _ len prefixLen pfx =>
      decide (6 ≤ len) && decide (len ≤ 31) && prefixLen == min len 11 && decide (pfx < 2 ^ prefixLen)

/-- Every emitted result is one the spec allows. -/
def State.resultsOk (s : State) : Bool := s.output.all Result.wf

/-- Every label is a multiple of 4 (20_memory.md R28): the counter's and those of the results. -/
def State.aligned (s : State) : Bool :=
  s.addrCtr.toNat % 4 == 0 && s.output.all fun r => r.addr.toNat % 4 == 0

/-- Each address of the list is the base, or 4 more than the one before it. -/
def stepsByFour : Addr → List Addr → Bool
  | _, [] => true
  | a, b :: bs => (b == a + Config.addrStep || b == Config.addrBase) && stepsByFour b bs

/-- The results' labels and then the counter, in order: the first is the base, and each is 4 more than the one
before it, or the base again after a reset (70_reset_and_hazards.md R129, R133). -/
def State.labelled (s : State) : Bool :=
  match s.output.map Result.addr ++ [s.addrCtr] with
  | [] => true
  | a :: rest => a == Config.addrBase && stepsByFour a rest

/-- Every line the environment is going to present has a length in the domain, so that none is refused
(10_state.md R22, 70_reset_and_hazards.md R132). -/
def inputInDomain (samples : List Sample) : Bool :=
  samples.all fun p => match p.line with
    | none => true
    | some ln => ln.inDomain

/-- The sample of a line of the domain with reset released (70_reset_and_hazards.md R132). -/
def lineSample (word : Word) (len : Fin 33) : Sample := ⟨false, some (Line.of word len)⟩

/-- A stream of lines of the domain as samples, reset released throughout. -/
def lineSamples (lines : List (Word × Fin 33)) : List Sample := lines.map fun l => lineSample l.1 l.2

/-- The results the spec gives a stream of lines whose first is labelled `addr` (70_reset_and_hazards.md
R138): one each, in order, each label 4 above the one before. -/
def decodeStream (addr : Addr) : List (Word × Fin 33) → List Result
  | [] => []
  | l :: ls => decode l.1 l.2 addr :: decodeStream (addr + Config.addrStep) ls

end Sys2Proof.Machine
end

