-- ==== Sys2Proof/Certificates/Slice0/Obligations.lean ====
section
/-! DEFINITION. The statements for the provers, each formalising numbered rules of spec/ or a property that
follows from several of them. -/

open Sys2Proof Sys2Proof.Machine

/-! ### Encoding, matching and extraction -/

/-- Decoding the word of a well-formed instruction gives the instruction back, for all 18 constructors and
every operand value the encodings admit (30_encoding.md R39 to R45, R47, R50, R52). -/
def Obligations.DecodeOfEncode : Prop := ∀ i : Instr, i.wf = true → decodeWord (encode i) = some i

/-- A word that decodes to an instruction is the word of that instruction, but for the two bits of format D
that no field uses, and the instruction is well-formed (30_encoding.md R41, R50, R55). -/
def Obligations.EncodeOfDecode : Prop :=
  ∀ (w : Word) (i : Instr), decodeWord w = some i →
    i.wf = true ∧
      encode i = if i.mnemonic = .stur ∨ i.mnemonic = .ldur then w &&& 0xFFFFF3FF#32 else w

/-- One word of each format, written out from the spec's layouts, decodes to what it stands for. -/
def Obligations.WrittenOutWordsDecode : Prop :=
  decodeWord 0b000101_1_0000000000000000000000101#32 = some (.b true 5) ∧
  decodeWord 0b10110100_1111111111111111100_01001#32 = some (.cbz 9 (-4)) ∧
  decodeWord 0b111100101_01_0001001000110100_00010#32 = some (.movk 2 4660 1) ∧
  decodeWord 0b1101000100_100000000000_00100_00101#32 = some (.subi 5 4 (-2048)) ∧
  decodeWord 0b11010011011_11111_000100_00001_00010#32 = some (.lsl 2 1 31 4) ∧
  decodeWord 0b11111000010_000010000_11_00011_00100#32 = some (.ldur 4 3 16) ∧
  decodeWord 0b11111110110111101111111111100111#32 = some .brk ∧
  decodeWord 0b11010011001_00000_000010_01010_01011#32 = none

/-- When the presented line decodes to an instruction, which is then well-formed, the step is exec of that
instruction at that state, with nothing added around it; and so for a table row's word as the host presents
it. -/
def Obligations.StepRunsDecodedInstruction : Prop :=
  (∀ (s : State) (ln : Line) (rest : List Sample) (i : Instr),
    s.input = ⟨false, some ln⟩ :: rest → decodeLine ln.word ln.len.toNat = .instr i →
      i.wf = true ∧ step s = exec i s) ∧
  (∀ (s : State) (nbits w : Nat) (i : Instr), decodeTableWord nbits w = some i →
      step (s.withFetchWord nbits w) = exec i (s.withFetchWord nbits w))

/-- 30_encoding.md R49: the key lengths, distinct keys within a length, and prefix-freeness over all pairs of
the 18 rows. -/
def Obligations.TableIsPrefixFree : Prop :=
  table.length = 18 ∧ (∀ r ∈ table, r.len ∈ [6, 8, 9, 10, 11, 32] ∧ r.key < 2 ^ r.len) ∧
  table.Pairwise fun r q =>
    r.key / 2 ^ (r.len - min r.len q.len) ≠ q.key / 2 ^ (q.len - min r.len q.len)

/-- 40_matcher_dispatch.md R63: the priority loop finds a row of length `n` exactly when that row's
comparator `word AND mask = match`, gated by `n <= L`, does; what it finds is the first hit of the trial
order; and no input hits at two lengths. -/
def Obligations.MatcherAgreesWithComparators : Prop :=
  ∀ (w : Word) (len : Nat), len ≤ 32 →
    (∀ n d, matchLine w len = some (n, d) ↔
      ∃ r ∈ table, r.len = n ∧ r.desc = d ∧ n ≤ len ∧ w &&& r.mask = r.pattern) ∧
    (∀ n d, matchLine w len = some (n, d) → ∃ before after,
      trialOrder = before ++ n :: after ∧ tryLength w len n = some (n, d) ∧
      ∀ m ∈ before, tryLength w len m = none) ∧
    (∀ n m, (tryLength w len n).isSome → (tryLength w len m).isSome → n = m)

/-- 30_encoding.md R54: how many of the 2^32 words are instructions and how many are data words. -/
def Obligations.InstructionWordCount : Prop :=
  Nat.card (Subtype fun w : Word => (decodeWord w).isSome = true) = 146800641 ∧
  Nat.card (Subtype fun w : Word => (decodeWord w).isNone = true) = 4148166655 ∧
  ∀ w : Word, decodeWord w = none → decodeLine w 32 = .data w.toInt

/-- The outcome table of 40_matcher_dispatch.md R68, with `match_len`, `operands_valid` and the recorded
lengths. -/
def Obligations.OutcomesByLength : Prop :=
  ∀ (w : Word) (len : Fin 33) (a : Addr),
    match decode w len a with
    | .tooShort addr n => len.val < 6 ∧ n = len.val ∧ addr = a
    | .data addr v => len.val = 32 ∧ v = w.toInt ∧ addr = a
    | .unknown addr n p k =>
        6 ≤ len.val ∧ len.val ≤ 31 ∧ n = len.val ∧ p = min len.val 11 ∧ k = w.toNat / 2 ^ (32 - p) ∧ addr = a
    | .instr addr m f n valid _ =>
        6 ≤ len.val ∧ n ≤ len.val ∧ isRow n m f = true ∧ valid = (len.val == 32) ∧ addr = a ∧
        (len.val ≤ 7 → m = .b) ∧ (len.val = 8 → f = .b ∨ f = .cb) ∧
        (len.val = 9 → f = .b ∨ f = .cb ∨ f = .im) ∧ (len.val = 10 → f = .b ∨ f = .cb ∨ f = .im ∨ f = .i) ∧
        (len.val ≤ 31 → m ≠ .brk)

/-- 40_matcher_dispatch.md R69 (c): two decodes of one line at two addresses differ in the label only. -/
def Obligations.AddressIsTransparent : Prop :=
  ∀ (w : Word) (len : Fin 33) (a b : Addr), decode w len b = (decode w len a).relabel b

/-- 40_matcher_dispatch.md R69 (d): the bits beyond the line's end influence nothing but operand values, and
those only where `operands_valid` is 0. -/
def Obligations.AbsentBitsReachOnlyOperands : Prop :=
  ∀ (w v : Word) (len : Fin 33) (a : Addr),
    (∀ p, p < len.val → w.getLsbD (31 - p) = v.getLsbD (31 - p)) →
      (decode w len a).withoutOperands = (decode v len a).withoutOperands ∧
      (len.val = 32 → decode w len a = decode v len a)

/-- 44_i_format.md R87: the sign-extension round trip at every width, its boundaries, and the I immediate's. -/
def Obligations.SignExtensionRoundTrip : Prop :=
  (∀ (n : Nat) (x : Int), 1 ≤ n → -(2 ^ (n - 1) : Int) ≤ x → x < (2 ^ (n - 1) : Int) →
    sext n (x % (2 ^ n : Int)).toNat = x) ∧
  (∀ (rd rn : Reg) (x : Int), -2048 ≤ x → x ≤ 2047 → fieldImmI (encode (.addi rd rn x)) = x) ∧
  sext 12 0b000000000000 = 0 ∧ sext 12 0b011111111111 = 2047 ∧ sext 12 0b100000000000 = -2048 ∧
  sext 12 0b111111111111 = -1

/-- 30_encoding.md R52: the B offset is sign-magnitude, symmetric, with two encodings of 0 that the result
keeps apart. -/
def Obligations.OffsetOfBIsSignMagnitude : Prop :=
  (∀ w : Word, ∃ offset : Int,
    extract .b w = .b (w.getLsbD 25) (w.extractLsb' 0 25).toNat offset ∧
    offset = (if w.getLsbD 25 = true then -((w.extractLsb' 0 25).toNat : Int) else ((w.extractLsb' 0 25).toNat : Int)) ∧
    -(2 ^ 25 - 1) ≤ offset ∧ offset ≤ 2 ^ 25 - 1) ∧
  (∀ x : Int, -(2 ^ 25 - 1) ≤ x → x ≤ 2 ^ 25 - 1 → ∃ w : Word, ∃ sign magnitude,
    w &&& 0xFC000000#32 = 0x14000000#32 ∧ extract .b w = .b sign magnitude x) ∧
  extract .b 0x14000000#32 = .b false 0 0 ∧ extract .b 0x16000000#32 = .b true 0 0 ∧
  extract .b 0x17FFFFFF#32 = .b true (2 ^ 25 - 1) (-(2 ^ 25 - 1))

/-- The extraction of every format tag, field by field in the wire numbering (41_b_format.md R73,
42_cb_format.md R76, 43_im_format.md R80, 44_i_format.md R84, 45_r_format.md R88, 46_d_format.md R98), and the
operand list of every operand shape, for every mnemonic (R88; 30_encoding.md R56). -/
def Obligations.ExtractReadsTheFields : Prop :=
  (∀ w : Word,
    extract .b w = .b (w.getLsbD 25) (w.extractLsb' 0 25).toNat
      (if w.getLsbD 25 = true then -((w.extractLsb' 0 25).toNat : Int) else ((w.extractLsb' 0 25).toNat : Int)) ∧
    extract .cb w = .cb (w.extractLsb' 0 5) (w.extractLsb' 5 19).toInt ∧
    extract .im w = .im (w.extractLsb' 0 5) (w.extractLsb' 5 16).toNat (w.extractLsb' 21 2).toNat
      (16 * (w.extractLsb' 21 2).toNat) ∧
    extract .i w = .i (w.extractLsb' 0 5) (w.extractLsb' 5 5) (w.extractLsb' 10 12).toInt ∧
    extract .r w = .r (w.extractLsb' 0 5) (w.extractLsb' 5 5) (w.extractLsb' 16 5) (w.extractLsb' 10 6) ∧
    extract .d w = .d (w.extractLsb' 0 5) (w.extractLsb' 5 5) (w.extractLsb' 12 9).toNat ∧
    extract .brk w = .none ∧ extract .nop w = .none) ∧
  (∀ (rd rn rm : Reg) (shamt : BitVec 6),
    (∀ m ∈ [Mnemonic.lsr, .lsl, .asr],
      operandList m (.r rd rn rm shamt) = [.reg rd, .reg rn, .imm shamt.toNat]) ∧
    (∀ m ∈ [Mnemonic.and, .add, .orr, .sub, .eor],
      operandList m (.r rd rn rm shamt) = [.reg rd, .reg rn, .reg rm])) ∧
  (∀ m : Mnemonic,
    (∀ (rd rn : Reg) (imm : Int), operandList m (.i rd rn imm) = [.reg rd, .reg rn, .imm imm]) ∧
    (∀ (rt rn : Reg) (imm : Nat), operandList m (.d rt rn imm) = [.reg rt, .mem rn imm]) ∧
    (∀ (rt : Reg) (imm : Int), operandList m (.cb rt imm) = [.reg rt, .imm imm]) ∧
    (∀ (rd : Reg) (imm shiftCode shiftAmount : Nat),
      operandList m (.im rd imm shiftCode shiftAmount) = [.reg rd, .imm imm, .lsl shiftAmount]) ∧
    (∀ (sign : Bool) (magnitude : Nat) (offset : Int),
      operandList m (.b sign magnitude offset) = [.imm offset]) ∧
    operandList m .none = [])

/-- 47_break_nop_data.md R104: no input has the format NOP; the all-zero word is the data word 0. -/
def Obligations.NoInputProducesNop : Prop :=
  (∀ (w : Word) (len : Fin 33) (a addr : Addr) (m : Mnemonic) (n : Nat) (valid : Bool) (ops : Operands),
    decode w len a ≠ .instr addr m .nop n valid ops) ∧
  (∀ r ∈ table, r.desc.format ≠ .nop) ∧ (∀ w : Word, extract .nop w = .none) ∧
  (∀ a : Addr, decode 0 32 a = .data a 0)

/-! ### What the step does with a line that spells an instruction: one statement a format, over every word
that has the key, every length that holds it, and every state -/

/-- 41_b_format.md R74. -/
def Obligations.StepOnFormatB : Prop :=
  (∀ (s : State) (w : Word) (len : Fin 33) (rest : List Sample),
    s.input = lineSample w len :: rest → 6 ≤ len.val → w &&& 0xFC000000#32 = 0x14000000#32 →
    ∃ ops,
      step s = .next
        { addrCtr := s.addrCtr + 4, input := rest,
          output := s.output ++ [.instr s.addrCtr .b .b 6 (len.val == 32) ops] } ∧
      ops.hasShape .b = true ∧ ops.inRange = true ∧
      (len.val = 32 →
        ops = .b (w.getLsbD 25) (w.extractLsb' 0 25).toNat
          (if w.getLsbD 25 = true then -((w.extractLsb' 0 25).toNat : Int) else ((w.extractLsb' 0 25).toNat : Int)))) ∧
  decode 0x14000005#32 32 96 = .instr 96 .b .b 6 true (.b false 5 5) ∧
  decode 0x16000005#32 32 96 = .instr 96 .b .b 6 true (.b true 5 (-5)) ∧
  instrText .b true (.b false 5 5) = "B\t#5".toList ∧
  trialOrder.getLast? = some 6

/-- 42_cb_format.md R77 (CBZ), R78 (CBNZ). -/
def Obligations.StepOnFormatCB : Prop :=
  (∀ p ∈ [(0xB4000000#32, Mnemonic.cbz), (0xB5000000#32, Mnemonic.cbnz)],
    ∀ (s : State) (w : Word) (len : Fin 33) (rest : List Sample),
    s.input = lineSample w len :: rest → 8 ≤ len.val → w &&& 0xFF000000#32 = p.1 →
    ∃ ops,
      step s = .next
        { addrCtr := s.addrCtr + 4, input := rest,
          output := s.output ++ [.instr s.addrCtr p.2 .cb 8 (len.val == 32) ops] } ∧
      ops.hasShape .cb = true ∧ ops.inRange = true ∧
      (len.val = 32 → ops = .cb (w.extractLsb' 0 5) (w.extractLsb' 5 19).toInt)) ∧
  decode 0xB47FFFE0#32 32 96 = .instr 96 .cbz .cb 8 true (.cb 0 262143) ∧
  decode 0xB4000061#32 32 96 = .instr 96 .cbz .cb 8 true (.cb 1 3) ∧
  decode 0xB4FFFF89#32 32 96 = .instr 96 .cbz .cb 8 true (.cb 9 (-4)) ∧
  decode 0xB580001F#32 32 96 = .instr 96 .cbnz .cb 8 true (.cb 31 (-262144)) ∧
  decode 0xB5FFFFC5#32 32 96 = .instr 96 .cbnz .cb 8 true (.cb 5 (-2)) ∧
  instrText .cbz true (.cb 1 3) = "CBZ\tR1, #3".toList ∧
  instrText .cbnz true (.cb 5 (-2)) = "CBNZ\tR5, #-2".toList ∧
  0xB4000000#32 ^^^ 0xB5000000#32 = BitVec.twoPow 32 24

/-- 43_im_format.md R81 (MOVZ), R82 (MOVK). -/
def Obligations.StepOnFormatIM : Prop :=
  (∀ p ∈ [(0xD2800000#32, Mnemonic.movz), (0xF2800000#32, Mnemonic.movk)],
    ∀ (s : State) (w : Word) (len : Fin 33) (rest : List Sample),
    s.input = lineSample w len :: rest → 9 ≤ len.val → w &&& 0xFF800000#32 = p.1 →
    ∃ ops,
      step s = .next
        { addrCtr := s.addrCtr + 4, input := rest,
          output := s.output ++ [.instr s.addrCtr p.2 .im 9 (len.val == 32) ops] } ∧
      ops.hasShape .im = true ∧ ops.inRange = true ∧
      (len.val = 32 →
        ops = .im (w.extractLsb' 0 5) (w.extractLsb' 5 16).toNat (w.extractLsb' 21 2).toNat
          (16 * (w.extractLsb' 21 2).toNat))) ∧
  decode 0xD2FFFFFF#32 32 96 = .instr 96 .movz .im 9 true (.im 31 65535 3 48) ∧
  decode 0xD2801FE1#32 32 96 = .instr 96 .movz .im 9 true (.im 1 255 0 0) ∧
  decode 0xF2C00000#32 32 96 = .instr 96 .movk .im 9 true (.im 0 0 2 32) ∧
  decode 0xF2A24682#32 32 96 = .instr 96 .movk .im 9 true (.im 2 4660 1 16) ∧
  instrText .movz true (.im 1 255 0 0) = "MOVZ\tR1, #255, LSL #0".toList ∧
  instrText .movk true (.im 2 4660 1 16) = "MOVK\tR2, #4660, LSL #16".toList ∧
  0xD2800000#32 ^^^ 0xF2800000#32 = BitVec.twoPow 32 29

/-- 44_i_format.md R85 (ADDI), R86 (SUBI). -/
def Obligations.StepOnFormatI : Prop :=
  (∀ p ∈ [(0x91000000#32, Mnemonic.addi), (0xD1000000#32, Mnemonic.subi)],
    ∀ (s : State) (w : Word) (len : Fin 33) (rest : List Sample),
    s.input = lineSample w len :: rest → 10 ≤ len.val → w &&& 0xFFC00000#32 = p.1 →
    ∃ ops,
      step s = .next
        { addrCtr := s.addrCtr + 4, input := rest,
          output := s.output ++ [.instr s.addrCtr p.2 .i 10 (len.val == 32) ops] } ∧
      ops.hasShape .i = true ∧ ops.inRange = true ∧
      (len.val = 32 → ops = .i (w.extractLsb' 0 5) (w.extractLsb' 5 5) (w.extractLsb' 10 12).toInt)) ∧
  decode 0x913FFFFF#32 32 96 = .instr 96 .addi .i 10 true (.i 31 31 (-1)) ∧
  decode 0x911FFC00#32 32 96 = .instr 96 .addi .i 10 true (.i 0 0 2047) ∧
  decode 0x91002841#32 32 96 = .instr 96 .addi .i 10 true (.i 1 2 10) ∧
  decode 0xD1200085#32 32 96 = .instr 96 .subi .i 10 true (.i 5 4 (-2048)) ∧
  decode 0xD1000463#32 32 96 = .instr 96 .subi .i 10 true (.i 3 3 1) ∧
  instrText .addi true (.i 1 2 10) = "ADDI\tR1, R2, #10".toList ∧
  instrText .subi true (.i 3 3 1) = "SUBI\tR3, R3, #1".toList ∧
  0x91000000#32 ^^^ 0xD1000000#32 = BitVec.twoPow 32 30

/-- 45_r_format.md R89 to R96 (AND, ADD, ORR, SUB, LSR, LSL, ASR, EOR). -/
def Obligations.StepOnFormatR : Prop :=
  (∀ p ∈ [(0x8A000000#32, Mnemonic.and), (0x8B000000#32, .add), (0xAA000000#32, .orr), (0xCB000000#32, .sub),
      (0xD3400000#32, .lsr), (0xD3600000#32, .lsl), (0xD3800000#32, .asr), (0xEA000000#32, .eor)],
    ∀ (s : State) (w : Word) (len : Fin 33) (rest : List Sample),
    s.input = lineSample w len :: rest → 11 ≤ len.val → w &&& 0xFFE00000#32 = p.1 →
    ∃ ops,
      step s = .next
        { addrCtr := s.addrCtr + 4, input := rest,
          output := s.output ++ [.instr s.addrCtr p.2 .r 11 (len.val == 32) ops] } ∧
      ops.hasShape .r = true ∧ ops.inRange = true ∧
      (len.val = 32 →
        ops = .r (w.extractLsb' 0 5) (w.extractLsb' 5 5) (w.extractLsb' 16 5) (w.extractLsb' 10 6) ∧
        operandList p.2 ops =
          if p.2 ∈ [Mnemonic.lsr, .lsl, .asr] then
            [.reg (w.extractLsb' 0 5), .reg (w.extractLsb' 5 5), .imm (w.extractLsb' 10 6).toNat]
          else [.reg (w.extractLsb' 0 5), .reg (w.extractLsb' 5 5), .reg (w.extractLsb' 16 5)])) ∧
  decode 0x8A030041#32 32 96 = .instr 96 .and .r 11 true (.r 1 2 3 0) ∧
  decode 0x8B030041#32 32 96 = .instr 96 .add .r 11 true (.r 1 2 3 0) ∧
  decode 0x8B03FC41#32 32 96 = .instr 96 .add .r 11 true (.r 1 2 3 63) ∧
  decode 0xAA0600A4#32 32 96 = .instr 96 .orr .r 11 true (.r 4 5 6 0) ∧
  decode 0xCB090107#32 32 96 = .instr 96 .sub .r 11 true (.r 7 8 9 0) ∧
  decode 0xD340094B#32 32 96 = .instr 96 .lsr .r 11 true (.r 11 10 0 2) ∧
  decode 0xD360FC21#32 32 96 = .instr 96 .lsl .r 11 true (.r 1 1 0 63) ∧
  decode 0xD37F1022#32 32 96 = .instr 96 .lsl .r 11 true (.r 2 1 31 4) ∧
  decode 0xD380818D#32 32 96 = .instr 96 .asr .r 11 true (.r 13 12 0 32) ∧
  decode 0xEA1F03FF#32 32 96 = .instr 96 .eor .r 11 true (.r 31 31 31 0) ∧
  instrText .and true (.r 1 2 3 0) = "AND\tR1, R2, R3".toList ∧
  instrText .add true (.r 1 2 3 63) = "ADD\tR1, R2, R3".toList ∧
  instrText .orr true (.r 4 5 6 0) = "ORR\tR4, R5, R6".toList ∧
  instrText .sub true (.r 7 8 9 0) = "SUB\tR7, R8, R9".toList ∧
  instrText .lsr true (.r 11 10 0 2) = "LSR\tR11, R10, #2".toList ∧
  instrText .lsl true (.r 2 1 31 4) = "LSL\tR2, R1, #4".toList ∧
  instrText .asr true (.r 13 12 0 32) = "ASR\tR13, R12, #32".toList ∧
  instrText .eor true (.r 31 31 31 0) = "EOR\tR31, R31, R31".toList ∧
  0x8A000000#32 ^^^ 0x8B000000#32 = BitVec.twoPow 32 24 ∧
  0x8B000000#32 ^^^ 0xCB000000#32 = BitVec.twoPow 32 30 ∧
  0xD3400000#32 ^^^ 0xD3600000#32 = BitVec.twoPow 32 21

/-- 46_d_format.md R99 (STUR), R100 (LDUR). -/
def Obligations.StepOnFormatD : Prop :=
  (∀ p ∈ [(0xF8000000#32, Mnemonic.stur), (0xF8400000#32, Mnemonic.ldur)],
    ∀ (s : State) (w : Word) (len : Fin 33) (rest : List Sample),
    s.input = lineSample w len :: rest → 11 ≤ len.val → w &&& 0xFFE00000#32 = p.1 →
    ∃ ops,
      step s = .next
        { addrCtr := s.addrCtr + 4, input := rest,
          output := s.output ++ [.instr s.addrCtr p.2 .d 11 (len.val == 32) ops] } ∧
      ops.hasShape .d = true ∧ ops.inRange = true ∧
      (len.val = 32 → ops = .d (w.extractLsb' 0 5) (w.extractLsb' 5 5) (w.extractLsb' 12 9).toNat)) ∧
  decode 0xF81FF3E0#32 32 96 = .instr 96 .stur .d 11 true (.d 0 31 511) ∧
  decode 0xF8008041#32 32 96 = .instr 96 .stur .d 11 true (.d 1 2 8) ∧
  decode 0xF8500064#32 32 96 = .instr 96 .ldur .d 11 true (.d 4 3 256) ∧
  decode 0xF8410C64#32 32 96 = .instr 96 .ldur .d 11 true (.d 4 3 16) ∧
  decode 0xF8410064#32 32 96 = .instr 96 .ldur .d 11 true (.d 4 3 16) ∧
  instrText .stur true (.d 1 2 8) = "STUR\tR1, [R2, #8]".toList ∧
  instrText .ldur true (.d 4 3 256) = "LDUR\tR4, [R3, #256]".toList ∧
  0xF8000000#32 ^^^ 0xF8400000#32 = BitVec.twoPow 32 22

/-- 47_break_nop_data.md R102: BREAK is exactly its literal at full length; a word one bit off is a data word,
and a shorter line made of its leading bits is an unknown opcode. -/
def Obligations.StepOnBreak : Prop :=
  (∀ (s : State) (rest : List Sample), s.input = lineSample 0xFEDEFFE7#32 32 :: rest →
    step s = .next
      { addrCtr := s.addrCtr + 4, input := rest,
        output := s.output ++ [.instr s.addrCtr .brk .brk 32 true .none] }) ∧
  (∀ (w : Word) (len : Fin 33) (a addr : Addr) (f : Format) (n : Nat) (valid : Bool) (ops : Operands),
    decode w len a = .instr addr .brk f n valid ops →
      w = 0xFEDEFFE7#32 ∧ len = 32 ∧ f = .brk ∧ n = 32 ∧ valid = true ∧ ops = .none) ∧
  (∀ (k : Nat) (a : Addr), k < 32 →
    decode (0xFEDEFFE7#32 ^^^ BitVec.twoPow 32 k) 32 a = .data a (0xFEDEFFE7#32 ^^^ BitVec.twoPow 32 k).toInt) ∧
  trialOrder.head? = some 32 ∧
  (∀ n ∈ [11, 10, 9, 8, 6], lookup n (candidateKey 0xFEDEFFE7#32 n) = none) ∧
  decode 0xFEDEFFE6#32 32 96 = .data 96 (-18939930) ∧
  decode 0xFEDEFFE6#32 31 96 = .unknown 96 31 11 0b11111110110 ∧
  render 0xFEDEFFE7#32 32 (decode 0xFEDEFFE7#32 32 120) = "11111110110111101111111111100111\t120\tBREAK"

/-! ### Exec answers: each instruction's own effect, in every state that presents a line of the domain. Where the
line spells the instruction, that effect is the family's rule; where it does not (another key, too few bits, or
operands the encoding does not admit), that `exec` answers as for its own instruction is the model's choice (log
entry 9), and no step asks for it. -/

/-- B answers with its result; on a full word the operands are its own, on a shorter line they are free. Where the line does not spell the
instruction, this is the model's choice (log entry 9). -/
def Obligations.ExecOfFormatBAnswers : Prop :=
  ∀ (sign : Bool) (magnitude : Nat) (s : State) (ln : Line) (rest : List Sample),
    s.input = ⟨false, some ln⟩ :: rest → ln.len.toNat ≤ 32 →
    ∃ ops,
      exec (.b sign magnitude) s = .next
        { addrCtr := s.addrCtr + 4, input := rest,
          output := s.output ++ [.instr s.addrCtr .b .b 6 (ln.len.toNat == 32) ops] } ∧
      ops.hasShape .b = true ∧
      (ln.len.toNat = 32 → ops = .b sign magnitude (if sign then -(magnitude : Int) else magnitude))

/-- CBZ and CBNZ answer with their results. Where the line does not spell the
instruction, this is the model's choice (log entry 9). -/
def Obligations.ExecOfFormatCBAnswers : Prop :=
  ∀ p ∈ [(Instr.cbz, Mnemonic.cbz), (Instr.cbnz, Mnemonic.cbnz)],
  ∀ (rt : Reg) (imm : Int) (s : State) (ln : Line) (rest : List Sample),
    s.input = ⟨false, some ln⟩ :: rest → ln.len.toNat ≤ 32 →
    ∃ ops,
      exec (p.1 rt imm) s = .next
        { addrCtr := s.addrCtr + 4, input := rest,
          output := s.output ++ [.instr s.addrCtr p.2 .cb 8 (ln.len.toNat == 32) ops] } ∧
      ops.hasShape .cb = true ∧ (ln.len.toNat = 32 → ops = .cb rt imm)

/-- MOVZ and MOVK answer with their results. Where the line does not spell the
instruction, this is the model's choice (log entry 9). -/
def Obligations.ExecOfFormatIMAnswers : Prop :=
  ∀ p ∈ [(Instr.movz, Mnemonic.movz), (Instr.movk, Mnemonic.movk)],
  ∀ (rd : Reg) (imm shiftCode : Nat) (s : State) (ln : Line) (rest : List Sample),
    s.input = ⟨false, some ln⟩ :: rest → ln.len.toNat ≤ 32 →
    ∃ ops,
      exec (p.1 rd imm shiftCode) s = .next
        { addrCtr := s.addrCtr + 4, input := rest,
          output := s.output ++ [.instr s.addrCtr p.2 .im 9 (ln.len.toNat == 32) ops] } ∧
      ops.hasShape .im = true ∧ (ln.len.toNat = 32 → ops = .im rd imm shiftCode (16 * shiftCode))

/-- ADDI and SUBI answer with their results. Where the line does not spell the
instruction, this is the model's choice (log entry 9). -/
def Obligations.ExecOfFormatIAnswers : Prop :=
  ∀ p ∈ [(Instr.addi, Mnemonic.addi), (Instr.subi, Mnemonic.subi)],
  ∀ (rd rn : Reg) (imm : Int) (s : State) (ln : Line) (rest : List Sample),
    s.input = ⟨false, some ln⟩ :: rest → ln.len.toNat ≤ 32 →
    ∃ ops,
      exec (p.1 rd rn imm) s = .next
        { addrCtr := s.addrCtr + 4, input := rest,
          output := s.output ++ [.instr s.addrCtr p.2 .i 10 (ln.len.toNat == 32) ops] } ∧
      ops.hasShape .i = true ∧ (ln.len.toNat = 32 → ops = .i rd rn imm)

/-- AND, ADD, ORR, SUB, LSR, LSL, ASR and EOR answer with their results: all four fields, also the one the
operand list leaves out. Where the line does not spell the instruction, this is the model's choice (log entry
9). -/
def Obligations.ExecOfFormatRAnswers : Prop :=
  ∀ p ∈ [(Instr.and, Mnemonic.and), (Instr.add, .add), (Instr.orr, .orr), (Instr.sub, .sub),
    (Instr.lsr, .lsr), (Instr.lsl, .lsl), (Instr.asr, .asr), (Instr.eor, .eor)],
  ∀ (rd rn rm : Reg) (shamt : BitVec 6) (s : State) (ln : Line) (rest : List Sample),
    s.input = ⟨false, some ln⟩ :: rest → ln.len.toNat ≤ 32 →
    ∃ ops,
      exec (p.1 rd rn rm shamt) s = .next
        { addrCtr := s.addrCtr + 4, input := rest,
          output := s.output ++ [.instr s.addrCtr p.2 .r 11 (ln.len.toNat == 32) ops] } ∧
      ops.hasShape .r = true ∧ (ln.len.toNat = 32 → ops = .r rd rn rm shamt)

/-- STUR and LDUR answer with their results. Where the line does not spell the
instruction, this is the model's choice (log entry 9). -/
def Obligations.ExecOfFormatDAnswers : Prop :=
  ∀ p ∈ [(Instr.stur, Mnemonic.stur), (Instr.ldur, Mnemonic.ldur)],
  ∀ (rt rn : Reg) (imm : Nat) (s : State) (ln : Line) (rest : List Sample),
    s.input = ⟨false, some ln⟩ :: rest → ln.len.toNat ≤ 32 →
    ∃ ops,
      exec (p.1 rt rn imm) s = .next
        { addrCtr := s.addrCtr + 4, input := rest,
          output := s.output ++ [.instr s.addrCtr p.2 .d 11 (ln.len.toNat == 32) ops] } ∧
      ops.hasShape .d = true ∧ (ln.len.toNat = 32 → ops = .d rt rn imm)

/-- BREAK answers with its result, `operands_valid` 1 and no operand, and changes nothing else. On every line
but the 32-bit literal of 47_break_nop_data.md R102 this, the `operands_valid` 1 of a shorter line included, is
the model's choice (log entry 9). -/
def Obligations.ExecOfBreakAnswers : Prop :=
  ∀ (s : State) (ln : Line) (rest : List Sample),
    s.input = ⟨false, some ln⟩ :: rest → ln.len.toNat ≤ 32 →
      exec .brk s = .next
        { addrCtr := s.addrCtr + 4, input := rest,
          output := s.output ++ [.instr s.addrCtr .brk .brk 32 true .none] }

/-- Where no line is presented, or one whose length is out of the domain, exec of any instruction does not
run it: it idles, or refuses by name. (The idling of exec is the model's choice, log entry 9; no step asks
for it.) -/
def Obligations.ExecWithoutALine : Prop :=
  ∀ (i : Instr) (s : State),
    ((s.event = .quiet ∨ s.event = .reset ∨ s.event = .idle) → exec i s = .next s) ∧
    (∀ ln, s.event = .line ln → 32 < ln.len.toNat → exec i s = .refused (.lengthOutOfDomain ln.len))

/-! ### The conditions, the data word, reset and idling -/

/-- 40_matcher_dispatch.md R60: the length check, whatever the bits. -/
def Obligations.ShortLineIsTooShort : Prop :=
  ∀ (s : State) (w : Word) (len : Fin 33) (rest : List Sample),
    s.input = lineSample w len :: rest → len.val < 6 →
      step s = .next
        { addrCtr := s.addrCtr + 4, input := rest, output := s.output ++ [.tooShort s.addrCtr len.val] }

/-- 40_matcher_dispatch.md R67: an unmatched line of 6 to 31 bits, with the leading `min(L, 11)` bits. -/
def Obligations.UnmatchedShortLineIsUnknown : Prop :=
  ∀ (s : State) (w : Word) (len : Fin 33) (rest : List Sample),
    s.input = lineSample w len :: rest → 6 ≤ len.val → len.val ≤ 31 →
    (∀ r ∈ table, r.len ≤ len.val → w &&& r.mask ≠ r.pattern) →
      step s = .next
        { addrCtr := s.addrCtr + 4, input := rest,
          output := s.output ++
            [.unknown s.addrCtr len.val (min len.val 11) (w >>> (32 - min len.val 11)).toNat] }

/-- 47_break_nop_data.md R105, R106, R107: a full word is a data word exactly when no row's comparator holds;
its value is the signed reading of all 32 bits; nothing but the counter moves. -/
def Obligations.UnmatchedWordIsData : Prop :=
  (∀ (s : State) (w : Word) (rest : List Sample), s.input = lineSample w 32 :: rest →
    (∀ r ∈ table, w &&& r.mask ≠ r.pattern) →
      step s = .next
        { addrCtr := s.addrCtr + 4, input := rest,
          output := s.output ++
            [.data s.addrCtr (if w.getLsbD 31 = true then (w.toNat : Int) - 2 ^ 32 else w.toNat)] }) ∧
  (∀ (w : Word) (a : Addr),
    (∃ v, decode w 32 a = .data a v) ↔ ∀ r ∈ table, w &&& r.mask ≠ r.pattern) ∧
  (∀ a : Addr,
    decode 0x00000000#32 32 a = .data a 0 ∧ decode 0xFFFFFFFF#32 32 a = .data a (-1) ∧
    decode 0x80000000#32 32 a = .data a (-2147483648) ∧ decode 0x7FFFFFFF#32 32 a = .data a 2147483647 ∧
    decode 0x0000000A#32 32 a = .data a 10 ∧ decode 0xFEDEFFE6#32 32 a = .data a (-18939930)) ∧
  (∀ r ∈ table, r.key ≠ 0 ∧ r.key ≠ 2 ^ r.len - 1)

/-- The neighbouring 11-bit key values 1689, 1693, 1985 and 1987 (45_r_format.md R97, 46_d_format.md R101):
no row; a full word that begins with one is data, a line of 11 to 31 bits is unknown. -/
def Obligations.NeighbourKeysMatchNothing : Prop :=
  ∀ k ∈ [1689, 1693, 1985, 1987], ∀ (w : Word) (len : Fin 33) (a : Addr),
    11 ≤ len.val → candidateKey w 11 = k →
      decode w len a = if len.val = 32 then .data a w.toInt else .unknown a len.val 11 k

/-- 70_reset_and_hazards.md R129: a step with reset asserted puts the counter to 96, accepts no line (whether
or not one is presented) and emits nothing; what it keeps of the environment's lists is the model's choice
(log entry 7). -/
def Obligations.ResetStepGoesToBase : Prop :=
  ∀ (s : State) (line : Option Line) (rest : List Sample), s.input = ⟨true, line⟩ :: rest →
    step s = .next { addrCtr := 96, input := rest, output := s.output }

/-- 60_exceptions.md R127, 40_matcher_dispatch.md R71: idling changes no state of the block; with nothing
more to come the step changes nothing at all (log entry 1). -/
def Obligations.IdlingChangesNothing : Prop :=
  (∀ (s : State) (rest : List Sample), s.input = ⟨false, none⟩ :: rest →
    step s = .next { addrCtr := s.addrCtr, input := rest, output := s.output }) ∧
  (∀ s : State, s.input = [] → step s = .next s)

/-- 10_state.md R24, 70_reset_and_hazards.md R130: the reset values. The empty `input` is the model's choice
(log entry 1). -/
def Obligations.ResetValues : Prop :=
  State.reset.addrCtr = 96 ∧ State.reset.output = [] ∧ State.reset.input = []

/-- A step refuses exactly when reset is released and a line of more than 32 bits is presented, and names that
length (10_state.md R22). -/
def Obligations.RefusesExactlyOutOfDomain : Prop :=
  (∀ (s : State) (r : Refusal), step s = .refused r ↔
    ∃ ln rest, s.input = ⟨false, some ln⟩ :: rest ∧ 32 < ln.len.toNat ∧ r = .lengthOutOfDomain ln.len)

/-- While every line to come has a length of the domain, no number of steps is refused. -/
def Obligations.DomainInputNeverStops : Prop :=
  ∀ (k : Nat) (s : State), inputInDomain s.input = true →
    ∃ t, Host.Core.run core k s = .next t ∧ inputInDomain t.input = true

/-! ### The machine as a whole -/

/-- 40_matcher_dispatch.md R70: one step with a line is `Decode` at the counter, the counter plus 4 modulo
2^32, and the result emitted, whatever the result is; so the lines of a stream from reset are labelled
96, 100, 104 and on, and no label wraps before line number 2^30 - 24. -/
def Obligations.StepIsDecodeThenAdvance : Prop :=
  (∀ (s : State) (w : Word) (len : Fin 33) (rest : List Sample),
    s.input = lineSample w len :: rest →
      ∃ t, step s = .next t ∧ t.output = s.output ++ [decode w len s.addrCtr] ∧ t.input = rest ∧
        t.addrCtr.toNat = (s.addrCtr.toNat + 4) % 2 ^ 32) ∧
  (∀ lines : List (Word × Fin 33), ∃ t,
    Host.Core.run core lines.length { State.reset with input := lineSamples lines } = .next t ∧
    t.output.map Result.addr = (List.range lines.length).map fun i => BitVec.ofNat 32 (96 + 4 * i)) ∧
  (∀ k, k < 2 ^ 30 - 24 → (BitVec.ofNat 32 (96 + 4 * k)).toNat = 96 + 4 * k)

/-- 70_reset_and_hazards.md R138: a run of `k` lines, from any state and so from reset: `k` results in order,
the `i`-th labelled `4 i` above the start, and the counter `4 k` above it, modulo 2^32. -/
def Obligations.RunOfLinesFromReset : Prop :=
  (∀ (s : State) (lines : List (Word × Fin 33)), s.input = lineSamples lines →
    Host.Core.run core lines.length s = .next
      { addrCtr := s.addrCtr + BitVec.ofNat 32 (4 * lines.length), input := [],
        output := s.output ++ decodeStream s.addrCtr lines }) ∧
  (∀ lines : List (Word × Fin 33), ∃ t,
    Host.Core.run core lines.length { State.reset with input := lineSamples lines } = .next t ∧
    t.addrCtr.toNat = (96 + 4 * lines.length) % 2 ^ 32 ∧ t.output.length = lines.length ∧
    ∀ (i : Nat) (h : i < lines.length),
      t.output[i]? = some (decode lines[i].1 lines[i].2 (BitVec.ofNat 32 (96 + 4 * i))))

/-- 10_state.md R21, 20_memory.md R32 (c): what a step does with the ports depends on them and on the counter
alone; earlier results and later lines change neither the result nor the counter. -/
def Obligations.StepForgetsHistory : Prop :=
  ∀ (s t : State) (p : Sample) (restS restT : List Sample),
    s.input = p :: restS → t.input = p :: restT → s.addrCtr = t.addrCtr →
    ∀ s', step s = .next s' →
      ∃ t' new, step t = .next t' ∧ t'.addrCtr = s'.addrCtr ∧ s'.output = s.output ++ new ∧
        t'.output = t.output ++ new ∧ s'.input = restS ∧ t'.input = restT

/-- Every step, from every state whose results are ones the spec allows, keeps them so: no NOP, shapes and
ranges as R19 gives them, DATA that spells no instruction, conditions with the lengths R116 and R117 give. -/
def Obligations.StepKeepsResultsAllowed : Prop :=
  ∀ s s' : State, s.resultsOk = true → step s = .next s' → s'.resultsOk = true

/-- Every step keeps every label a multiple of 4 (20_memory.md R28), and keeps the labels in order: the base
first, each 4 above the one before or the base again after a reset. -/
def Obligations.StepKeepsLabels : Prop :=
  (∀ s s' : State, s.aligned = true → step s = .next s' → s'.aligned = true) ∧
  (∀ s s' : State, s.labelled = true → step s = .next s' → s'.labelled = true)

/-- The invariants hold at reset. -/
def Obligations.ResetMeetsInvariants : Prop :=
  State.reset.resultsOk = true ∧ State.reset.aligned = true ∧ State.reset.labelled = true

/-! ### Ports and text -/

/-- 30_encoding.md R38: spaces removed, then refused if a character is no binary digit or if more than 32
digits are left, else left-aligned with zeros after the line's end. -/
def Obligations.TextBindingLeftAligns : Prop :=
  (∀ (cs : List Char) (bits : List Bool),
    cs.filter (fun c => c != ' ') = bits.map (fun b => if b then '1' else '0') → bits.length ≤ 32 →
      ∃ ln, textToPorts cs = .ok ln ∧ ln.len.toNat = bits.length ∧
        ∀ p, p < 32 → ln.word.getLsbD (31 - p) = bits.getD p false) ∧
  (∀ (cs : List Char) (bits : List Bool),
    cs.filter (fun c => c != ' ') = bits.map (fun b => if b then '1' else '0') → 32 < bits.length →
      textToPorts cs = .error .lineTooLong) ∧
  (∀ (cs : List Char) (c : Char), c ∈ cs → c ≠ '0' → c ≠ '1' → c ≠ ' ' →
    textToPorts cs = .error .nonBinaryCharacter) ∧
  textToPorts "000101 0 0000000000000000000000101".toList = .ok ⟨0x14000005#32, 32⟩ ∧
  textToPorts "00010100000000000000000000000101".toList = .ok ⟨0x14000005#32, 32⟩

/-- 20_memory.md R27: under either byte order, where the byte at each address stands in the word. -/
def Obligations.WordOfBytesByOrder : Prop :=
  ∀ b0 b1 b2 b3 : BitVec 8,
    (wordOfBytes .big b0 b1 b2 b3).toNat
      = b0.toNat * 2 ^ 24 + b1.toNat * 2 ^ 16 + b2.toNat * 2 ^ 8 + b3.toNat ∧
    (wordOfBytes .little b0 b1 b2 b3).toNat
      = b3.toNat * 2 ^ 24 + b2.toNat * 2 ^ 16 + b1.toNat * 2 ^ 8 + b0.toNat

/-- 10_state.md R20: the codes follow the listed orders, and a field that the result's tag or its operand shape
does not carry is 0 on the flat port, for all four tags and all seven operand shapes. Where `operands_valid` is
0, the 0 on the other shapes' fields is the model's choice (log entry 15). -/
def Obligations.FlatPortCodes : Prop :=
  [Format.r, .i, .d, .b, .cb, .im, .brk, .nop].map formatCode = List.range 8 ∧
  (table.map fun r => mnemonicCode r.desc.mnemonic) = List.range 18 ∧
  (∀ (a : Addr) (v : Int), (Result.data a v).flat = { status := 1, addr := a.toNat, value := v }) ∧
  (∀ (a : Addr) (n : Nat), (Result.tooShort a n).flat = { status := 2, addr := a.toNat, len := n }) ∧
  (∀ (a : Addr) (n p k : Nat), (Result.unknown a n p k).flat
    = { status := 3, addr := a.toNat, len := n, prefixLen := p, pfx := k }) ∧
  (∀ (a : Addr) (m : Mnemonic) (f : Format) (n : Nat) (valid : Bool),
    (∀ (rd rn rm : Reg) (shamt : BitVec 6), (Result.instr a m f n valid (.r rd rn rm shamt)).flat
      = { status := 0, addr := a.toNat, mnemonic := mnemonicCode m, format := formatCode f, matchLen := n,
          operandsValid := valid.toNat, rd := rd.toNat, rn := rn.toNat, rm := rm.toNat, shamt := shamt.toNat }) ∧
    (∀ (rd rn : Reg) (imm : Int), (Result.instr a m f n valid (.i rd rn imm)).flat
      = { status := 0, addr := a.toNat, mnemonic := mnemonicCode m, format := formatCode f, matchLen := n,
          operandsValid := valid.toNat, rd := rd.toNat, rn := rn.toNat, imm := imm }) ∧
    (∀ (rt rn : Reg) (imm : Nat), (Result.instr a m f n valid (.d rt rn imm)).flat
      = { status := 0, addr := a.toNat, mnemonic := mnemonicCode m, format := formatCode f, matchLen := n,
          operandsValid := valid.toNat, rt := rt.toNat, rn := rn.toNat, imm := imm }) ∧
    (∀ (rt : Reg) (imm : Int), (Result.instr a m f n valid (.cb rt imm)).flat
      = { status := 0, addr := a.toNat, mnemonic := mnemonicCode m, format := formatCode f, matchLen := n,
          operandsValid := valid.toNat, rt := rt.toNat, imm := imm }) ∧
    (∀ (rd : Reg) (imm shiftCode shiftAmount : Nat),
      (Result.instr a m f n valid (.im rd imm shiftCode shiftAmount)).flat
      = { status := 0, addr := a.toNat, mnemonic := mnemonicCode m, format := formatCode f, matchLen := n,
          operandsValid := valid.toNat, rd := rd.toNat, imm := imm, shiftCode := shiftCode,
          shiftAmount := shiftAmount }) ∧
    (∀ (sign : Bool) (magnitude : Nat) (offset : Int),
      (Result.instr a m f n valid (.b sign magnitude offset)).flat
      = { status := 0, addr := a.toNat, mnemonic := mnemonicCode m, format := formatCode f, matchLen := n,
          operandsValid := valid.toNat, sign := sign.toNat, magnitude := magnitude, offset := offset }) ∧
    (Result.instr a m f n valid .none).flat
      = { status := 0, addr := a.toNat, mnemonic := mnemonicCode m, format := formatCode f, matchLen := n,
          operandsValid := valid.toNat })

/-- 30_encoding.md R57: cutting the digits into groups only inserts spaces, for every format and every line;
the 32 digits of a full word are cut at the field boundaries of each format and joined by one space; and the
spec's three example texts. -/
def Obligations.RenderedGroupsKeepTheDigits : Prop :=
  (∀ (f : Format) (w : Word) (len : Nat),
    (cutGroups (groupLengths f) (digits w len)).filter (fun c => c != ' ') = digits w len) ∧
  (∀ (w : Word) (d : List Char), d = digits w 32 →
    cutGroups (groupLengths .r) d = List.intercalate [' ']
      [d.take 11, (d.drop 11).take 5, (d.drop 16).take 6, (d.drop 22).take 5, d.drop 27] ∧
    cutGroups (groupLengths .i) d = List.intercalate [' ']
      [d.take 10, (d.drop 10).take 12, (d.drop 22).take 5, d.drop 27] ∧
    cutGroups (groupLengths .d) d = List.intercalate [' ']
      [d.take 11, (d.drop 11).take 9, (d.drop 20).take 2, (d.drop 22).take 5, d.drop 27] ∧
    cutGroups (groupLengths .cb) d = List.intercalate [' '] [d.take 8, (d.drop 8).take 19, d.drop 27] ∧
    cutGroups (groupLengths .im) d = List.intercalate [' ']
      [d.take 9, (d.drop 9).take 2, (d.drop 11).take 16, d.drop 27] ∧
    cutGroups (groupLengths .b) d = List.intercalate [' '] [d.take 6, (d.drop 6).take 1, d.drop 7] ∧
    cutGroups (groupLengths .brk) d = d) ∧
  render 0x8B030041#32 32 (decode 0x8B030041#32 32 96)
    = "10001011000 00011 000000 00010 00001\t96\tADD\tR1, R2, R3" ∧
  render 0xFEDEFFE7#32 32 (decode 0xFEDEFFE7#32 32 120) = "11111110110111101111111111100111\t120\tBREAK" ∧
  render 0xFFFFFFFF#32 32 (decode 0xFFFFFFFF#32 32 124) = "11111111111111111111111111111111\t124\t-1"

/-- The parts of a rendered line in order: of a full word that is an instruction or data and the minus sign of
the B offset (30_encoding.md R57), and of a line too short and an unknown opcode, which names the line's leading
`min(L, 11)` digits (60_exceptions.md R119). -/
def Obligations.RenderedLineHasItsParts : Prop :=
  (∀ (w : Word) (a : Addr) (m : Mnemonic) (f : Format) (n : Nat) (ops : Operands),
    renderChars w 32 (.instr a m f n true ops)
      = cutGroups (groupLengths f) (digits w 32) ++ ['\t'] ++ decimal a.toNat ++ ['\t'] ++ mnemonicText m ++
        if operandList m ops = [] then [] else ['\t'] ++ operandListText (operandList m ops)) ∧
  (∀ w : Word, instrText .b true (extract .b w)
    = "B\t#".toList ++ (if w.getLsbD 25 = true ∧ 0 < (w.extractLsb' 0 25).toNat then ['-'] else [])
      ++ decimal (w.extractLsb' 0 25).toNat) ∧
  (∀ (w : Word) (a addr : Addr) (v : Int), decode w 32 a = .data addr v →
    renderChars w 32 (decode w 32 a)
      = digits w 32 ++ ['\t'] ++ decimal a.toNat ++ ['\t'] ++ signedDecimal w.toInt) ∧
  (∀ (w : Word) (len : Fin 33) (a : Addr), len.val < 6 →
    renderChars w len.val (decode w len a)
      = digits w len.val ++ ['\t'] ++ decimal a.toNat ++ "\tERROR: line too short (".toList
        ++ decimal len.val ++ " bits)".toList) ∧
  (∀ (w : Word) (len : Fin 33) (a addr : Addr) (l n k : Nat), decode w len a = .unknown addr l n k →
    renderChars w len.val (decode w len a)
      = digits w len.val ++ ['\t'] ++ decimal a.toNat ++ "\tERROR: unknown opcode ".toList
        ++ (digits w len.val).take 11)
end

