-- ==== Sys2Proof/Laws/Decode.lean ====
section
/-! SUPPORT. Small lemmas of the decoder's parts: fields and their ranges, the table lookup, candidate keys
against comparators, and what extraction makes. -/

namespace Sys2Proof

/-! ### Fields -/

theorem slice_lt (w : Word) (hi lo : Nat) : slice w hi lo < 2 ^ (hi + 1 - lo) :=
  Nat.mod_lt _ (Nat.two_pow_pos _)

/-- A slice is the bit field of the same bits. -/
theorem slice_eq_extractLsb' (w : Word) (hi lo : Nat) :
    slice w hi lo = (w.extractLsb' lo (hi + 1 - lo)).toNat := by
  simp [slice, BitVec.extractLsb'_toNat, Nat.shiftRight_eq_div_pow]

/-- `sext` of a bit field is its two's-complement reading. -/
theorem sext_toNat (n : Nat) (hn : 0 < n) (x : BitVec n) : sext n x.toNat = x.toInt := by
  have hpow : 2 ^ n = 2 * 2 ^ (n - 1) := by rw [← pow_succ']; congr 1; omega
  rw [sext, BitVec.toInt_eq_toNat_cond]
  by_cases h : 2 ^ (n - 1) ≤ x.toNat
  · rw [if_pos h, if_neg (by omega)]
    push_cast
    rfl
  · rw [if_neg h, if_pos (by omega)]

theorem sext_slice (w : Word) (hi lo : Nat) (h : lo ≤ hi) :
    sext (hi + 1 - lo) (slice w hi lo) = (w.extractLsb' lo (hi + 1 - lo)).toInt := by
  rw [slice_eq_extractLsb', sext_toNat _ (by omega)]

theorem sext_fits {n v : Nat} (hn : 0 < n) (h : v < 2 ^ n) : fitsSigned n (sext n v) = true := by
  obtain ⟨m, rfl⟩ : ∃ m, n = m + 1 := ⟨n - 1, by omega⟩
  have h2 : v < 2 * 2 ^ m := by rw [Nat.pow_succ] at h; omega
  have h3 : (v : Int) < 2 * 2 ^ m := by exact_mod_cast h2
  simp only [fitsSigned, sext, Nat.add_sub_cancel, Bool.and_eq_true, decide_eq_true_eq, pow_succ]
  have hp : (0 : Int) < 2 ^ m := by positivity
  split
  next hle =>
    have : (2 : Int) ^ m ≤ v := by exact_mod_cast hle
    constructor <;> linarith
  next hlt =>
    have : (v : Int) < 2 ^ m := by exact_mod_cast (Nat.lt_of_not_le hlt)
    constructor <;> linarith [Int.natCast_nonneg v]

theorem fieldRd_eq (w : Word) : fieldRd w = w.extractLsb' 0 5 := by
  rw [fieldRd, slice_eq_extractLsb', BitVec.ofNat_toNat, BitVec.setWidth_eq]

theorem fieldRt_eq (w : Word) : fieldRt w = w.extractLsb' 0 5 := by
  rw [fieldRt, slice_eq_extractLsb', BitVec.ofNat_toNat, BitVec.setWidth_eq]

theorem fieldRn_eq (w : Word) : fieldRn w = w.extractLsb' 5 5 := by
  rw [fieldRn, slice_eq_extractLsb', BitVec.ofNat_toNat, BitVec.setWidth_eq]

theorem fieldRm_eq (w : Word) : fieldRm w = w.extractLsb' 16 5 := by
  rw [fieldRm, slice_eq_extractLsb', BitVec.ofNat_toNat, BitVec.setWidth_eq]

theorem fieldShamt_eq (w : Word) : fieldShamt w = w.extractLsb' 10 6 := by
  rw [fieldShamt, slice_eq_extractLsb', BitVec.ofNat_toNat, BitVec.setWidth_eq]

theorem fieldImmI_eq (w : Word) : fieldImmI w = (w.extractLsb' 10 12).toInt := sext_slice w 21 10 (by decide)

theorem fieldImmCB_eq (w : Word) : fieldImmCB w = (w.extractLsb' 5 19).toInt := sext_slice w 23 5 (by decide)

theorem fieldImmD_eq (w : Word) : fieldImmD w = (w.extractLsb' 12 9).toNat := slice_eq_extractLsb' w 20 12

theorem fieldImmIM_eq (w : Word) : fieldImmIM w = (w.extractLsb' 5 16).toNat := slice_eq_extractLsb' w 20 5

theorem fieldShiftCode_eq (w : Word) : fieldShiftCode w = (w.extractLsb' 21 2).toNat :=
  slice_eq_extractLsb' w 22 21

theorem fieldMagnitude_eq (w : Word) : fieldMagnitude w = (w.extractLsb' 0 25).toNat :=
  slice_eq_extractLsb' w 24 0

theorem fieldSign_eq (w : Word) : fieldSign w = w.getLsbD 25 := by
  simp only [fieldSign, slice, BitVec.getLsbD, Nat.testBit_eq_decide_div_mod_eq]
  rfl

/-! ### The table -/

/-- A lookup finds exactly the row of that length and key. -/
theorem lookup_eq_some_iff {n k : Nat} {d : Descriptor} :
    lookup n k = some d ↔ ∃ r ∈ table, r.len = n ∧ r.key = k ∧ r.desc = d := by
  have found : ∀ r ∈ table, lookup r.len r.key = some r.desc := by decide
  constructor
  · intro h
    obtain ⟨r, hr, rfl⟩ := Option.map_eq_some_iff.mp h
    have hp := List.find?_some hr
    simp only [Bool.and_eq_true, beq_iff_eq] at hp
    exact ⟨r, List.mem_of_find?_eq_some hr, hp.1, hp.2, rfl⟩
  · rintro ⟨r, hr, rfl, rfl, rfl⟩
    exact found r hr

/-- A word's leading bits are a row's key exactly when the row's comparator holds. -/
theorem candidateKey_eq_iff (w : Word) {r : Row} (hr : r ∈ table) :
    candidateKey w r.len = r.key ↔ w &&& r.mask = r.pattern := by
  have shape : ∀ r ∈ table, 0 < r.len ∧ r.len ≤ 32 ∧ r.mask = BitVec.allOnes 32 <<< (32 - r.len) ∧
      r.pattern.toNat = r.key * 2 ^ (32 - r.len) := by decide
  obtain ⟨_, hlen, hmask, hpat⟩ := shape r hr
  have hand : (w &&& r.mask).toNat = w.toNat / 2 ^ (32 - r.len) * 2 ^ (32 - r.len) := by
    have : w &&& r.mask = (w >>> (32 - r.len)) <<< (32 - r.len) := by
      ext i hi
      simp only [hmask, BitVec.getElem_and, BitVec.getElem_shiftLeft, BitVec.getElem_ushiftRight,
        BitVec.getElem_allOnes]
      by_cases h : i < 32 - r.len
      · simp [h]
      · have hi' : 32 - r.len + (i - (32 - r.len)) = i := by omega
        simp [h, hi', BitVec.getLsbD_eq_getElem hi]
    rw [this, BitVec.toNat_shiftLeft, BitVec.toNat_ushiftRight, Nat.shiftRight_eq_div_pow,
      Nat.shiftLeft_eq, Nat.mod_eq_of_lt]
    exact lt_of_le_of_lt (Nat.div_mul_le_self _ _) w.isLt
  rw [← BitVec.toNat_inj, hand, hpat, candidateKey, Nat.mul_left_inj (by positivity)]

/-! ### Extraction -/

/-- What a mnemonic makes of a word has that mnemonic. -/
@[simp] theorem instrOf_mnemonic (m : Mnemonic) (w : Word) : (instrOf m w).mnemonic = m := by
  cases m <;> rfl

/-- Extracted operands have the shape their tag calls for. -/
theorem extract_hasShape (f : Format) (w : Word) : (extract f w).hasShape f = true := by
  cases f <;> rfl

/-- A decoded instruction is well-formed, whatever the word. -/
theorem instrOf_wf (m : Mnemonic) (w : Word) : (instrOf m w).wf = true := by
  have u : ∀ hi lo n, hi + 1 - lo = n → fitsUnsigned n (slice w hi lo) = true := by
    rintro hi lo n rfl
    simpa [fitsUnsigned] using slice_lt w hi lo
  have i12 : fitsSigned 12 (fieldImmI w) = true := sext_fits (by decide) (slice_lt w 21 10)
  have i19 : fitsSigned 19 (fieldImmCB w) = true := sext_fits (by decide) (slice_lt w 23 5)
  cases m <;>
    simp [instrOf, Instr.wf, i12, i19, fieldMagnitude, fieldImmIM, fieldShiftCode, fieldImmD, u]

end Sys2Proof
end

