-- ==== Sys2Proof/Laws/State.lean ====
section
/-! SUPPORT. What each update of the state does to each field, so that no later proof unfolds one. -/

namespace Sys2Proof.Machine

@[simp] theorem reset_addrCtr : State.reset.addrCtr = 96#32 := rfl
@[simp] theorem reset_input : State.reset.input = [] := rfl
@[simp] theorem reset_output : State.reset.output = [] := rfl

@[simp] theorem nextSample_addrCtr (s : State) : s.nextSample.addrCtr = s.addrCtr := rfl
@[simp] theorem nextSample_input (s : State) : s.nextSample.input = s.input.tail := rfl
@[simp] theorem nextSample_output (s : State) : s.nextSample.output = s.output := rfl

@[simp] theorem advance_addrCtr (s : State) : s.advance.addrCtr = s.addrCtr + 4#32 := rfl
@[simp] theorem advance_input (s : State) : s.advance.input = s.input := rfl
@[simp] theorem advance_output (s : State) : s.advance.output = s.output := rfl

@[simp] theorem hand_addrCtr (s : State) (r : Result) : (s.hand r).addrCtr = s.addrCtr := rfl
@[simp] theorem hand_input (s : State) (r : Result) : (s.hand r).input = s.input := rfl
@[simp] theorem hand_output (s : State) (r : Result) : (s.hand r).output = s.output ++ [r] := rfl

@[simp] theorem emit_addrCtr (s : State) (r : Result) : (s.emit r).addrCtr = s.addrCtr + 4#32 := rfl
@[simp] theorem emit_input (s : State) (r : Result) : (s.emit r).input = s.input.tail := rfl
@[simp] theorem emit_output (s : State) (r : Result) : (s.emit r).output = s.output ++ [r] := rfl

@[simp] theorem takeReset_addrCtr (s : State) : s.takeReset.addrCtr = 96#32 := rfl
@[simp] theorem takeReset_input (s : State) : s.takeReset.input = s.input.tail := rfl
@[simp] theorem takeReset_output (s : State) : s.takeReset.output = s.output := rfl

@[simp] theorem present_addrCtr (s : State) (ln : Line) : (s.present ln).addrCtr = s.addrCtr := rfl
@[simp] theorem present_input (s : State) (ln : Line) :
    (s.present ln).input = ⟨false, some ln⟩ :: s.input := rfl
@[simp] theorem present_output (s : State) (ln : Line) : (s.present ln).output = s.output := rfl

end Sys2Proof.Machine
end

