-- ==== Sys2Proof/Laws/Ops.lean ====
section
/-! SUPPORT. What the ports show and what answering a line can do, each said once. -/

namespace Sys2Proof.Machine

/-! ### The ports -/

theorem event_of_nil {s : State} (h : s.input = []) : s.event = .quiet := by
  simp [State.event, h]

theorem event_of_reset {s : State} {line : Option Line} {rest : List Sample}
    (h : s.input = ⟨true, line⟩ :: rest) : s.event = .reset := by
  simp [State.event, h]

theorem event_of_idle {s : State} {rest : List Sample} (h : s.input = ⟨false, none⟩ :: rest) :
    s.event = .idle := by
  simp [State.event, h]

theorem event_of_line {s : State} {ln : Line} {rest : List Sample}
    (h : s.input = ⟨false, some ln⟩ :: rest) : s.event = .line ln := by
  simp [State.event, h]

/-- The event is a line only if the ports show it with reset released. -/
theorem event_eq_line {s : State} {ln : Line} (h : s.event = .line ln) :
    ∃ rest, s.input = ⟨false, some ln⟩ :: rest := by
  rcases hs : s.input with _ | ⟨⟨rst, line⟩, rest⟩
  · simp [State.event, hs] at h
  · cases rst <;> cases line <;> simp_all [State.event]

/-- The event depends on the first sample alone. -/
theorem event_congr {s t : State} {p : Sample} {restS restT : List Sample} (hs : s.input = p :: restS)
    (ht : t.input = p :: restT) : s.event = t.event := by
  simp [State.event, hs, ht]

theorem present_event (s : State) (ln : Line) : (s.present ln).event = .line ln :=
  event_of_line (present_input s ln)

/-! ### Lines of the domain -/

theorem inDomain_iff {ln : Line} : ln.inDomain = true ↔ ln.len.toNat ≤ 32 := by
  simp [Line.inDomain]

@[simp] theorem of_word (w : Word) (len : Fin 33) : (Line.of w len).word = w := rfl

@[simp] theorem of_len (w : Word) (len : Fin 33) : (Line.of w len).len.toNat = len.val := by
  simp only [Line.of, BitVec.toNat_ofNat]
  omega

/-! ### Answering a line -/

theorem answerLine_of_line {s : State} {ln : Line} {f : Line → Addr → Result} (h : s.event = .line ln)
    (hd : ln.len.toNat ≤ 32) : answerLine s f = .next (s.emit (f ln s.addrCtr)) := by
  simp [answerLine, h, inDomain_iff, hd]

theorem answerLine_out_of_domain {s : State} {ln : Line} {f : Line → Addr → Result} (h : s.event = .line ln)
    (hd : 32 < ln.len.toNat) : answerLine s f = .refused (.lengthOutOfDomain ln.len) := by
  simp [answerLine, h, inDomain_iff, hd]

/-- Answering a line that leads to a next state is one of two things: no line is presented and nothing
changes, or a line of the domain is presented and its result is emitted. -/
theorem answerLine_eq_next {s s' : State} {f : Line → Addr → Result} (h : answerLine s f = .next s') :
    ((∀ ln, s.event ≠ .line ln) ∧ s' = s) ∨
      ∃ ln, s.event = .line ln ∧ ln.len.toNat ≤ 32 ∧ s' = s.emit (f ln s.addrCtr) := by
  unfold answerLine at h
  split at h
  next ln hev =>
    split at h
    next hd => exact .inr ⟨ln, hev, inDomain_iff.mp hd, by simpa using h.symm⟩
    next => simp at h
  all_goals exact .inl ⟨by simp_all, by simpa using h.symm⟩

/-- Answering a line never faults. -/
theorem answerLine_ne_fault (s : State) (f : Line → Addr → Result) (x : Fault) : answerLine s f ≠ .fault x :=
  nomatch x

/-- Answering a matched line of the domain: the result, with operands free unless the line is a word. -/
theorem answerInstr_of_line {s : State} {ln : Line} (m : Mnemonic) (f : Format) (n : Nat) (exact : Operands)
    (h : s.event = .line ln) (hd : ln.len.toNat ≤ 32) :
    answerInstr s m f n exact = .next (s.emit
      (.instr s.addrCtr m f n (ln.len.toNat == 32) (reportedOperands ln.word ln.len.toNat exact))) :=
  answerLine_of_line h hd

/-- Raising a condition on a line of the domain returns it as the line's result and does nothing else. -/
theorem raiseCondition_of_line {s : State} {ln : Line} {c : Line → Addr → Result} (h : s.event = .line ln)
    (hd : ln.len.toNat ≤ 32) : raiseCondition s c = .next (s.emit (c ln s.addrCtr)) :=
  answerLine_of_line h hd

/-! ### Operands -/

theorem reportedOperands_full (w : Word) (exact : Operands) : reportedOperands w 32 exact = exact := rfl

theorem reportedOperands_short {w : Word} {len : Nat} (h : len ≠ 32) (exact : Operands) :
    reportedOperands w len exact = freeOperands w len exact := by
  simp [reportedOperands, h]

/-- Free operands keep the shape and the ranges, whatever the free values are. -/
theorem freeOperands_inRange (w : Word) (len : Nat) (exact : Operands) :
    (freeOperands w len exact).inRange = true := by
  cases exact
  case im =>
    have h := ((Config.freeField .shiftAmount w len).setWidth 2).isLt
    have h2 : freeNat 2 .shiftAmount w len < 4 := h
    simp only [freeOperands, Operands.inRange, fitsUnsigned, shiftAmountOf, Bool.and_eq_true, decide_eq_true_eq]
    refine ⟨⟨((Config.freeField .imm w len).setWidth 16).isLt, ((Config.freeField .shiftCode w len).setWidth 2).isLt⟩, ?_⟩
    generalize freeNat 2 .shiftAmount w len = k at h2
    interval_cases k <;> decide
  case b =>
    have h : freeNat 25 .offset w len < 2 ^ 25 := ((Config.freeField .offset w len).setWidth 25).isLt
    have h' : freeNat 25 .magnitude w len < 2 ^ 25 := ((Config.freeField .magnitude w len).setWidth 25).isLt
    simp only [freeOperands, Operands.inRange, fitsUnsigned, signMagnitude, Bool.and_eq_true, decide_eq_true_eq]
    refine ⟨⟨h', ?_⟩, ?_⟩ <;> split <;> omega
  case i =>
    have h := BitVec.toInt_lt (x := (Config.freeField .imm w len).setWidth 12)
    have h' := BitVec.le_toInt (x := (Config.freeField .imm w len).setWidth 12)
    simp only [freeOperands, Operands.inRange, fitsSigned, freeInt, Bool.and_eq_true, decide_eq_true_eq]
    omega
  case cb =>
    have h := BitVec.toInt_lt (x := (Config.freeField .imm w len).setWidth 19)
    have h' := BitVec.le_toInt (x := (Config.freeField .imm w len).setWidth 19)
    simp only [freeOperands, Operands.inRange, fitsSigned, freeInt, Bool.and_eq_true, decide_eq_true_eq]
    omega
  case d =>
    simp only [freeOperands, Operands.inRange, fitsUnsigned, decide_eq_true_eq]
    exact ((Config.freeField .imm w len).setWidth 9).isLt
  all_goals rfl

theorem freeOperands_hasShape (w : Word) (len : Nat) (exact : Operands) (f : Format) :
    (freeOperands w len exact).hasShape f = exact.hasShape f := by
  cases exact <;> rfl

theorem reportedOperands_hasShape (w : Word) (len : Nat) (exact : Operands) (f : Format) :
    (reportedOperands w len exact).hasShape f = exact.hasShape f := by
  unfold reportedOperands
  split
  · rfl
  · exact freeOperands_hasShape w len exact f

end Sys2Proof.Machine
end

