-- ==== Sys2Proof/Laws/PerInstr.lean ====
section
/-! SUPPORT. A family of lemmas with one member per instruction: the encoder writes the key of the
instruction's own row at the front of the word. -/

namespace Sys2Proof.Laws

/-- The leading bits of a well-formed instruction's word are the key of the row that has its mnemonic
(30_encoding.md R47). -/
def EncodeKey.Statement (i : Instr) : Prop :=
  i.wf = true → ∃ r ∈ table, r.desc.mnemonic = i.mnemonic ∧ candidateKey (encode i) r.len = r.key

/-- Bits that fit behind a key leave the key in front. -/
theorem candidateKey_place {len key rest : Nat} (hk : key < 2 ^ len) (hl : len ≤ 32)
    (hr : rest < 2 ^ (32 - len)) : candidateKey (place len key rest) len = key := by
  have hpow : 2 ^ len * 2 ^ (32 - len) = 2 ^ 32 := by rw [← pow_add]; congr 1; omega
  have hlt : key * 2 ^ (32 - len) + rest < 2 ^ 32 := by
    calc key * 2 ^ (32 - len) + rest < key * 2 ^ (32 - len) + 2 ^ (32 - len) := by omega
      _ = (key + 1) * 2 ^ (32 - len) := by ring
      _ ≤ 2 ^ len * 2 ^ (32 - len) := Nat.mul_le_mul_right _ hk
      _ = 2 ^ 32 := hpow
  rw [candidateKey, place, BitVec.toNat_ofNat, Nat.mod_eq_of_lt hlt, mul_comm, Nat.mul_add_div (by positivity),
    Nat.div_eq_of_lt hr, add_zero]

theorem fieldOf_lt (n : Nat) (x : Int) : fieldOf n x < 2 ^ n := by
  have h := Int.emod_lt_of_pos x (b := 2 ^ n) (by positivity)
  have h0 := Int.emod_nonneg x (b := 2 ^ n) (by positivity)
  rw [fieldOf, Int.toNat_lt h0]
  exact_mod_cast h

theorem restR_lt (rd rn rm : Reg) (shamt : BitVec 6) : restR rd rn rm shamt < 2 ^ 21 := by
  have := rd.isLt; have := rn.isLt; have := rm.isLt; have := shamt.isLt
  unfold restR; omega

theorem restI_lt (rd rn : Reg) (imm : Int) : restI rd rn imm < 2 ^ 22 := by
  have := rd.isLt; have := rn.isLt; have := fieldOf_lt 12 imm
  unfold restI; omega

theorem restD_lt (rt rn : Reg) (imm : Nat) : restD rt rn imm < 2 ^ 21 := by
  have := rt.isLt; have := rn.isLt; have := fieldOf_lt 9 imm
  unfold restD; omega

theorem restCB_lt (rt : Reg) (imm : Int) : restCB rt imm < 2 ^ 24 := by
  have := rt.isLt; have := fieldOf_lt 19 imm
  unfold restCB; omega

theorem restIM_lt (rd : Reg) (imm shiftCode : Nat) : restIM rd imm shiftCode < 2 ^ 23 := by
  have := rd.isLt; have := fieldOf_lt 16 imm; have := fieldOf_lt 2 shiftCode
  unfold restIM; omega

theorem restB_lt (sign : Bool) (magnitude : Nat) : restB sign magnitude < 2 ^ 26 := by
  have := fieldOf_lt 25 magnitude
  cases sign <;> simp only [restB, Bool.toNat_true, Bool.toNat_false] <;> omega

theorem EncodeKey.b (sign : Bool) (magnitude : Nat) : EncodeKey.Statement (.b sign magnitude) := fun _ =>
  ⟨⟨6, 0b000101, .b, .b⟩, by decide, rfl, candidateKey_place (by decide) (by decide) (restB_lt _ _)⟩

theorem EncodeKey.cbz (rt : Reg) (imm : Int) : EncodeKey.Statement (.cbz rt imm) := fun _ =>
  ⟨⟨8, 0b10110100, .cbz, .cb⟩, by decide, rfl, candidateKey_place (by decide) (by decide) (restCB_lt _ _)⟩

theorem EncodeKey.cbnz (rt : Reg) (imm : Int) : EncodeKey.Statement (.cbnz rt imm) := fun _ =>
  ⟨⟨8, 0b10110101, .cbnz, .cb⟩, by decide, rfl, candidateKey_place (by decide) (by decide) (restCB_lt _ _)⟩

theorem EncodeKey.movz (rd : Reg) (imm shiftCode : Nat) : EncodeKey.Statement (.movz rd imm shiftCode) := fun _ =>
  ⟨⟨9, 0b110100101, .movz, .im⟩, by decide, rfl, candidateKey_place (by decide) (by decide) (restIM_lt _ _ _)⟩

theorem EncodeKey.movk (rd : Reg) (imm shiftCode : Nat) : EncodeKey.Statement (.movk rd imm shiftCode) := fun _ =>
  ⟨⟨9, 0b111100101, .movk, .im⟩, by decide, rfl, candidateKey_place (by decide) (by decide) (restIM_lt _ _ _)⟩

theorem EncodeKey.addi (rd rn : Reg) (imm : Int) : EncodeKey.Statement (.addi rd rn imm) := fun _ =>
  ⟨⟨10, 0b1001000100, .addi, .i⟩, by decide, rfl, candidateKey_place (by decide) (by decide) (restI_lt _ _ _)⟩

theorem EncodeKey.subi (rd rn : Reg) (imm : Int) : EncodeKey.Statement (.subi rd rn imm) := fun _ =>
  ⟨⟨10, 0b1101000100, .subi, .i⟩, by decide, rfl, candidateKey_place (by decide) (by decide) (restI_lt _ _ _)⟩

theorem EncodeKey.and (rd rn rm : Reg) (shamt : BitVec 6) : EncodeKey.Statement (.and rd rn rm shamt) := fun _ =>
  ⟨⟨11, 0b10001010000, .and, .r⟩, by decide, rfl, candidateKey_place (by decide) (by decide) (restR_lt _ _ _ _)⟩

theorem EncodeKey.add (rd rn rm : Reg) (shamt : BitVec 6) : EncodeKey.Statement (.add rd rn rm shamt) := fun _ =>
  ⟨⟨11, 0b10001011000, .add, .r⟩, by decide, rfl, candidateKey_place (by decide) (by decide) (restR_lt _ _ _ _)⟩

theorem EncodeKey.orr (rd rn rm : Reg) (shamt : BitVec 6) : EncodeKey.Statement (.orr rd rn rm shamt) := fun _ =>
  ⟨⟨11, 0b10101010000, .orr, .r⟩, by decide, rfl, candidateKey_place (by decide) (by decide) (restR_lt _ _ _ _)⟩

theorem EncodeKey.sub (rd rn rm : Reg) (shamt : BitVec 6) : EncodeKey.Statement (.sub rd rn rm shamt) := fun _ =>
  ⟨⟨11, 0b11001011000, .sub, .r⟩, by decide, rfl, candidateKey_place (by decide) (by decide) (restR_lt _ _ _ _)⟩

theorem EncodeKey.lsr (rd rn rm : Reg) (shamt : BitVec 6) : EncodeKey.Statement (.lsr rd rn rm shamt) := fun _ =>
  ⟨⟨11, 0b11010011010, .lsr, .r⟩, by decide, rfl, candidateKey_place (by decide) (by decide) (restR_lt _ _ _ _)⟩

theorem EncodeKey.lsl (rd rn rm : Reg) (shamt : BitVec 6) : EncodeKey.Statement (.lsl rd rn rm shamt) := fun _ =>
  ⟨⟨11, 0b11010011011, .lsl, .r⟩, by decide, rfl, candidateKey_place (by decide) (by decide) (restR_lt _ _ _ _)⟩

theorem EncodeKey.asr (rd rn rm : Reg) (shamt : BitVec 6) : EncodeKey.Statement (.asr rd rn rm shamt) := fun _ =>
  ⟨⟨11, 0b11010011100, .asr, .r⟩, by decide, rfl, candidateKey_place (by decide) (by decide) (restR_lt _ _ _ _)⟩

theorem EncodeKey.eor (rd rn rm : Reg) (shamt : BitVec 6) : EncodeKey.Statement (.eor rd rn rm shamt) := fun _ =>
  ⟨⟨11, 0b11101010000, .eor, .r⟩, by decide, rfl, candidateKey_place (by decide) (by decide) (restR_lt _ _ _ _)⟩

theorem EncodeKey.stur (rt rn : Reg) (imm : Nat) : EncodeKey.Statement (.stur rt rn imm) := fun _ =>
  ⟨⟨11, 0b11111000000, .stur, .d⟩, by decide, rfl, candidateKey_place (by decide) (by decide) (restD_lt _ _ _)⟩

theorem EncodeKey.ldur (rt rn : Reg) (imm : Nat) : EncodeKey.Statement (.ldur rt rn imm) := fun _ =>
  ⟨⟨11, 0b11111000010, .ldur, .d⟩, by decide, rfl, candidateKey_place (by decide) (by decide) (restD_lt _ _ _)⟩

theorem EncodeKey.brk : EncodeKey.Statement .brk := fun _ =>
  ⟨⟨32, 0b11111110110111101111111111100111, .brk, .brk⟩, by decide, rfl,
    candidateKey_place (by decide) (by decide) (by decide)⟩

end Sys2Proof.Laws
end

