-- ==== Sys2Proof/Laws/Step.lean ====
section
/-! SUPPORT. What the meaning of an instruction and one step can do, each said once. -/

namespace Sys2Proof.Machine

/-- Every instruction's meaning answers the presented line with some result, and does nothing else. -/
theorem exec_eq_answerLine (i : Instr) (s : State) : ∃ result, exec i s = answerLine s result := by
  cases i <;>
    simp only [exec, execB, execCbz, execCbnz, execMovz, execMovk, execAddi, execSubi, execAnd, execAdd, execOrr,
      execSub, execLsr, execLsl, execAsr, execEor, execStur, execLdur, execBrk, answerInstr] <;>
    exact ⟨_, rfl⟩

/-- The step of a line of the domain answers the presented line with some result. -/
theorem stepLine_eq_answerLine {ln : Line} (s : State) (h : ln.len.toNat ≤ 32) :
    ∃ result, stepLine ln s = answerLine s result := by
  unfold stepLine
  cases hd : decodeLine ln.word ln.len.toNat with
  | outOfDomain =>
    unfold decodeLine at hd
    rw [if_neg (by omega)] at hd
    split at hd
    · cases hd
    · split at hd
      · cases hd
      · split at hd <;> cases hd
  | tooShort => exact ⟨_, by simp only [raiseTooShort, raiseCondition]; rfl⟩
  | instr i => exact exec_eq_answerLine i s
  | data value => exact ⟨_, rfl⟩
  | unknown prefixLen pfx => exact ⟨_, by simp only [raiseUnknown, raiseCondition]; rfl⟩

/-- A line out of the domain is refused by name. -/
theorem stepLine_out_of_domain {ln : Line} (s : State) (h : 32 < ln.len.toNat) :
    stepLine ln s = .refused (.lengthOutOfDomain ln.len) := by
  simp [stepLine, decodeLine, h]

/-- A step that leads to a next state is one of four: nothing left to drive, reset, an idle step, or a line of
the domain answered with one result. -/
theorem step_eq_next {s s' : State} (h : step s = .next s') :
    (s.event = .quiet ∧ s' = s) ∨ (s.event = .reset ∧ s' = s.takeReset) ∨
      (s.event = .idle ∧ s' = s.nextSample) ∨
      ∃ ln r, s.event = .line ln ∧ ln.len.toNat ≤ 32 ∧ s' = s.emit r := by
  unfold step at h
  split at h
  next hev => exact .inl ⟨hev, by simpa using h.symm⟩
  next hev => exact .inr (.inl ⟨hev, by simpa using h.symm⟩)
  next hev => exact .inr (.inr (.inl ⟨hev, by simpa using h.symm⟩))
  next ln hev =>
    by_cases hd : ln.len.toNat ≤ 32
    · obtain ⟨result, hr⟩ := stepLine_eq_answerLine s hd
      rw [hr, answerLine_of_line hev hd] at h
      exact .inr (.inr (.inr ⟨ln, _, hev, hd, by simpa using h.symm⟩))
    · rw [stepLine_out_of_domain s (by omega)] at h
      cases h

/-- A step never faults: the block has no fault (60_exceptions.md R115). -/
theorem step_ne_fault (s : State) (x : Fault) : step s ≠ .fault x := nomatch x

end Sys2Proof.Machine
end

