-- ==== Sys2Proof/Tests/Slice0.lean ====
section
/-! SUPPORT. Tests: the well-formedness checks refuse ill-formed terms; the words of the spec's examples decode
and step to what the spec says (95_test_vectors.md, its section 1 from the source and its section 2 derived by
hand from the rules); and, for every statement with hypotheses, a witness that meets them. -/

namespace Sys2Proof.Tests

open Sys2Proof Sys2Proof.Machine

/-! ### Well-formedness: one ill-formed term for each check -/

theorem test_wf_refuses_magnitude : (Instr.b false (2 ^ 25)).wf = false := by decide
theorem test_wf_refuses_cbz_above : (Instr.cbz 0 262144).wf = false := by decide
theorem test_wf_refuses_cbz_below : (Instr.cbz 0 (-262145)).wf = false := by decide
theorem test_wf_refuses_cbnz_above : (Instr.cbnz 0 262144).wf = false := by decide
theorem test_wf_refuses_cbnz_below : (Instr.cbnz 0 (-262145)).wf = false := by decide
theorem test_wf_refuses_movz_imm : (Instr.movz 0 65536 0).wf = false := by decide
theorem test_wf_refuses_movz_code : (Instr.movz 0 0 4).wf = false := by decide
theorem test_wf_refuses_movk_imm : (Instr.movk 0 65536 0).wf = false := by decide
theorem test_wf_refuses_movk_code : (Instr.movk 0 0 4).wf = false := by decide
theorem test_wf_refuses_addi_above : (Instr.addi 0 0 2048).wf = false := by decide
theorem test_wf_refuses_addi_below : (Instr.addi 0 0 (-2049)).wf = false := by decide
theorem test_wf_refuses_subi_above : (Instr.subi 0 0 2048).wf = false := by decide
theorem test_wf_refuses_subi_below : (Instr.subi 0 0 (-2049)).wf = false := by decide
theorem test_wf_refuses_stur_imm : (Instr.stur 0 0 512).wf = false := by decide
theorem test_wf_refuses_ldur_imm : (Instr.ldur 0 0 512).wf = false := by decide
theorem test_range_refuses_shift_amount : (Operands.im 0 0 0 8).inRange = false := by decide
theorem test_range_refuses_offset : (Operands.b true 0 (-(2 ^ 25))).inRange = false := by decide
theorem test_shape_refuses_other_format : (Operands.cb 0 0).hasShape .d = false := by decide

/-! ### Decoding: one word of each row, written out from its layout -/

/-- S2: the source's own example. -/
theorem test_decode_b : decodeWord 0b000101_1_0000000000000000000000101#32 = some (.b true 5) := by decide
/-- R77, example. -/
theorem test_decode_cbz : decodeWord 0b10110100_1111111111111111100_01001#32 = some (.cbz 9 (-4)) := by decide
/-- R78, smallest immediate. -/
theorem test_decode_cbnz : decodeWord 0b10110101_1000000000000000000_11111#32 = some (.cbnz 31 (-262144)) := by decide
/-- R81, largest everything. -/
theorem test_decode_movz : decodeWord 0b110100101_11_1111111111111111_11111#32 = some (.movz 31 65535 3) := by decide
/-- R82, example. -/
theorem test_decode_movk : decodeWord 0b111100101_01_0001001000110100_00010#32 = some (.movk 2 4660 1) := by decide
/-- R85, imm -1. -/
theorem test_decode_addi : decodeWord 0b1001000100_111111111111_11111_11111#32 = some (.addi 31 31 (-1)) := by decide
/-- R86, smallest immediate. -/
theorem test_decode_subi : decodeWord 0b1101000100_100000000000_00100_00101#32 = some (.subi 5 4 (-2048)) := by decide
/-- R89, example. -/
theorem test_decode_and : decodeWord 0b10001010000_00011_000000_00010_00001#32 = some (.and 1 2 3 0) := by decide
/-- R90, corner case. -/
theorem test_decode_add : decodeWord 0b10001011000_00011_111111_00010_00001#32 = some (.add 1 2 3 63) := by decide
/-- R91, example. -/
theorem test_decode_orr : decodeWord 0b10101010000_00110_000000_00101_00100#32 = some (.orr 4 5 6 0) := by decide
/-- R92, example. -/
theorem test_decode_sub : decodeWord 0b11001011000_01001_000000_01000_00111#32 = some (.sub 7 8 9 0) := by decide
/-- R93, example. -/
theorem test_decode_lsr : decodeWord 0b11010011010_00000_000010_01010_01011#32 = some (.lsr 11 10 0 2) := by decide
/-- R94, corner case. -/
theorem test_decode_lsl : decodeWord 0b11010011011_11111_000100_00001_00010#32 = some (.lsl 2 1 31 4) := by decide
/-- R95, example. -/
theorem test_decode_asr : decodeWord 0b11010011100_00000_100000_01100_01101#32 = some (.asr 13 12 0 32) := by decide
/-- R96, example. -/
theorem test_decode_eor : decodeWord 0b11101010000_11111_000000_11111_11111#32 = some (.eor 31 31 31 0) := by decide
/-- R99, largest offset. -/
theorem test_decode_stur : decodeWord 0b11111000000_111111111_00_11111_00000#32 = some (.stur 0 31 511) := by decide
/-- R100, unnamed bits set. -/
theorem test_decode_ldur : decodeWord 0b11111000010_000010000_11_00011_00100#32 = some (.ldur 4 3 16) := by decide
/-- R102. -/
theorem test_decode_brk : decodeWord 0b11111110110111101111111111100111#32 = some (.brk) := by decide

/-- R54: a full word is never unknown; key value 1689 is no row (R97). -/
theorem test_decode_data : decodeLine 0xD320094B#32 32 = .data (-752875189) := by decide
/-- 95_test_vectors.md section 2.9: a recognised length that matches nothing is unknown. -/
theorem test_decode_unknown : decodeLine 0xFEC00000#32 11 = .unknown 11 0b11111110110 := by decide
/-- Section 2.9: the first 5 bits of the B key are too short. -/
theorem test_decode_too_short : decodeLine 0x10000000#32 5 = .tooShort := by decide
/-- R22: 33 is outside the domain. -/
theorem test_decode_out_of_domain : decodeLine 0x14000005#32 33 = .outOfDomain := by decide
/-- The host's numbering: bit 0 of a row's word is the word's least significant bit. -/
theorem test_decode_table_word : decodeTableWord 32 0x8B030041 = some (.add 1 2 3 0) := by decide
/-- More bits than a word are no word. -/
theorem test_decode_table_word_too_wide : decodeTableWord 40 0x8B030041 = none := by decide

/-! ### Steps -/

/-- The state after reset with one line presented. -/
def presenting (w : Word) (len : BitVec 6) : State := State.reset.present ⟨w, len⟩

/-- The counter and the results of a next state. -/
def emitted : Host.Outcome State Fault Refusal → Option (Addr × List Result)
  | .next s => some (s.addrCtr, s.output)
  | .fault _ => none
  | .refused _ => none

/-- The reason of a refusal. -/
def refusal : Host.Outcome State Fault Refusal → Option Refusal
  | .refused r => some r
  | .next _ => none
  | .fault _ => none

theorem test_step_b : emitted (step (presenting 0b000101_1_0000000000000000000000101#32 32)) =
    some (100, [.instr 96 .b .b 6 true (.b true 5 (-5))]) := by decide
theorem test_step_cbz : emitted (step (presenting 0b10110100_1111111111111111100_01001#32 32)) =
    some (100, [.instr 96 .cbz .cb 8 true (.cb 9 (-4))]) := by decide
theorem test_step_cbnz : emitted (step (presenting 0b10110101_1000000000000000000_11111#32 32)) =
    some (100, [.instr 96 .cbnz .cb 8 true (.cb 31 (-262144))]) := by decide
theorem test_step_movz : emitted (step (presenting 0b110100101_11_1111111111111111_11111#32 32)) =
    some (100, [.instr 96 .movz .im 9 true (.im 31 65535 3 48)]) := by decide
theorem test_step_movk : emitted (step (presenting 0b111100101_01_0001001000110100_00010#32 32)) =
    some (100, [.instr 96 .movk .im 9 true (.im 2 4660 1 16)]) := by decide
theorem test_step_addi : emitted (step (presenting 0b1001000100_111111111111_11111_11111#32 32)) =
    some (100, [.instr 96 .addi .i 10 true (.i 31 31 (-1))]) := by decide
theorem test_step_subi : emitted (step (presenting 0b1101000100_100000000000_00100_00101#32 32)) =
    some (100, [.instr 96 .subi .i 10 true (.i 5 4 (-2048))]) := by decide
theorem test_step_and : emitted (step (presenting 0b10001010000_00011_000000_00010_00001#32 32)) =
    some (100, [.instr 96 .and .r 11 true (.r 1 2 3 0)]) := by decide
theorem test_step_add : emitted (step (presenting 0b10001011000_00011_111111_00010_00001#32 32)) =
    some (100, [.instr 96 .add .r 11 true (.r 1 2 3 63)]) := by decide
theorem test_step_orr : emitted (step (presenting 0b10101010000_00110_000000_00101_00100#32 32)) =
    some (100, [.instr 96 .orr .r 11 true (.r 4 5 6 0)]) := by decide
theorem test_step_sub : emitted (step (presenting 0b11001011000_01001_000000_01000_00111#32 32)) =
    some (100, [.instr 96 .sub .r 11 true (.r 7 8 9 0)]) := by decide
theorem test_step_lsr : emitted (step (presenting 0b11010011010_00000_000010_01010_01011#32 32)) =
    some (100, [.instr 96 .lsr .r 11 true (.r 11 10 0 2)]) := by decide
theorem test_step_lsl : emitted (step (presenting 0b11010011011_11111_000100_00001_00010#32 32)) =
    some (100, [.instr 96 .lsl .r 11 true (.r 2 1 31 4)]) := by decide
theorem test_step_asr : emitted (step (presenting 0b11010011100_00000_100000_01100_01101#32 32)) =
    some (100, [.instr 96 .asr .r 11 true (.r 13 12 0 32)]) := by decide
theorem test_step_eor : emitted (step (presenting 0b11101010000_11111_000000_11111_11111#32 32)) =
    some (100, [.instr 96 .eor .r 11 true (.r 31 31 31 0)]) := by decide
theorem test_step_stur : emitted (step (presenting 0b11111000000_111111111_00_11111_00000#32 32)) =
    some (100, [.instr 96 .stur .d 11 true (.d 0 31 511)]) := by decide
theorem test_step_ldur : emitted (step (presenting 0b11111000010_000010000_11_00011_00100#32 32)) =
    some (100, [.instr 96 .ldur .d 11 true (.d 4 3 16)]) := by decide
theorem test_step_brk : emitted (step (presenting 0b11111110110111101111111111100111#32 32)) =
    some (100, [.instr 96 .brk .brk 32 true (.none)]) := by decide

/-- S4: the all-zero word is the data word 0. -/
theorem test_step_data : emitted (step (presenting 0 32)) = some (100, [.data 96 0]) := by decide
/-- S6: a line of 4 bits. -/
theorem test_step_too_short : emitted (step (presenting 0x10000000#32 4)) = some (100, [.tooShort 96 4]) := by
  decide
/-- S7: a line of 7 bits. -/
theorem test_step_unknown :
    emitted (step (presenting 0xFE000000#32 7)) = some (100, [.unknown 96 7 7 0b1111111]) := by decide
/-- Section 2.5: ADD's key alone matches, its operands not valid. -/
theorem test_step_short_match :
    (decode 0x8B000000#32 11 96).withoutOperands = .instr 96 .add .r 11 false .none := by decide
/-- Section 2.10: the counter wraps. -/
theorem test_step_wraps :
    emitted (step { presenting 0 32 with addrCtr := 0xFFFFFFFC#32 }) = some (0, [.data 0xFFFFFFFC#32 0]) := by
  decide
/-- Section 2.10: an address that is no multiple of 4 is copied. -/
theorem test_decode_any_address : decode 0x8B030041#32 32 97 = .instr 97 .add .r 11 true (.r 1 2 3 0) := by
  decide
/-- R22: `L` = 33 is refused by name. -/
theorem test_step_refuses : refusal (step (presenting 0 33)) = some (.lengthOutOfDomain 33) := by decide
/-- R129: with reset asserted the presented line is not accepted. -/
theorem test_step_reset :
    emitted (step ⟨200, [⟨true, some ⟨0x14000005#32, 32⟩⟩], []⟩) = some (96, []) := by decide
/-- R127: an idle step. -/
theorem test_step_idle : emitted (step ⟨200, [⟨false, none⟩], []⟩) = some (200, []) := by decide
/-- The word the host presents runs as the first instruction. -/
theorem test_step_fetch_word :
    emitted (step (State.reset.withFetchWord 32 0xFEDEFFE7)) = some (100, [.instr 96 .brk .brk 32 true .none]) := by
  decide

/-! ### Text, flat port and bytes -/

/-- S1's line with the spaces the spec writes (30_encoding.md R38). -/
theorem test_text_spaces :
    (textToPorts "000101 0 0000000000000000000000101".toList).toOption = some ⟨0x14000005#32, 32⟩ := by decide
/-- A tab is no binary digit (91_not_in_source.md N20). -/
theorem test_text_refuses_tab : (textToPorts "0001\t01".toList).toOption = none := by decide
/-- 30_encoding.md R57, first example. -/
theorem test_render_add : render 0x8B030041#32 32 (decode 0x8B030041#32 32 96) =
    "10001011000 00011 000000 00010 00001\t96\tADD\tR1, R2, R3" := by decide
/-- 60_exceptions.md R119. -/
theorem test_render_unknown : render 0xFE000000#32 7 (decode 0xFE000000#32 7 96) =
    "1111111\t96\tERROR: unknown opcode 1111111" := by decide
/-- 60_exceptions.md R119. -/
theorem test_render_too_short : render 0x10000000#32 4 (decode 0x10000000#32 4 96) =
    "0001\t96\tERROR: line too short (4 bits)" := by decide
/-- 10_state.md R20: the codes of B and CBZ, and 0 for what CBZ does not carry. -/
theorem test_flat_cbz : (decode 0xB4FFFF89#32 32 96).flat =
    { status := 0, addr := 96, mnemonic := 1, format := 4, matchLen := 8, operandsValid := 1, rt := 9, imm := -4 } := by
  decide
theorem test_bytes_big : wordOfBytes .big 0x8B 0x03 0x00 0x41 = 0x8B030041#32 := by decide
theorem test_bytes_little : wordOfBytes .little 0x41 0x00 0x03 0x8B = 0x8B030041#32 := by decide

/-! ### Witnesses: for each statement with hypotheses, values that meet them all, at the ends of their ranges -/

/-- A state that presents one line of the domain. -/
def lined (w : Word) (len : Fin 33) : State := { State.reset with input := [lineSample w len] }

theorem witness_DecodeOfEncode :
    (Instr.b true (2 ^ 25 - 1)).wf = true ∧ (Instr.cbz 31 (-262144)).wf = true ∧ (Instr.cbnz 0 262143).wf = true ∧
    (Instr.movz 31 65535 3).wf = true ∧ (Instr.movk 0 0 0).wf = true ∧ (Instr.addi 31 0 (-2048)).wf = true ∧
    (Instr.subi 0 31 2047).wf = true ∧ (Instr.and 0 0 0 0).wf = true ∧ (Instr.add 31 31 31 63).wf = true ∧
    (Instr.orr 1 2 3 4).wf = true ∧ (Instr.sub 1 2 3 4).wf = true ∧ (Instr.lsr 1 2 3 4).wf = true ∧
    (Instr.lsl 1 2 3 4).wf = true ∧ (Instr.asr 1 2 3 4).wf = true ∧ (Instr.eor 1 2 3 4).wf = true ∧
    (Instr.stur 0 0 511).wf = true ∧ (Instr.ldur 0 0 0).wf = true ∧ Instr.brk.wf = true := by decide

theorem witness_EncodeOfDecode :
    decodeWord 0xF8410C64#32 = some (.ldur 4 3 16) ∧ decodeWord 0x8B030041#32 = some (.add 1 2 3 0) := by decide

theorem witness_StepRunsDecodedInstruction :
    (presenting 0x8B030041#32 32).input = ⟨false, some ⟨0x8B030041#32, 32⟩⟩ :: [] ∧
    decodeLine 0x8B030041#32 (32 : BitVec 6).toNat = .instr (.add 1 2 3 0) ∧
    decodeTableWord 32 0x8B030041 = some (.add 1 2 3 0) := by decide

theorem witness_MatcherAgreesWithComparators :
    matchLine 0x8B030041#32 32 = some (11, ⟨.add, .r⟩) ∧ (tryLength 0x8B030041#32 32 11).isSome = true ∧
    matchLine 0xFEDEFFE7#32 32 = some (32, ⟨.brk, .brk⟩) ∧ matchLine 0 0 = none := by decide

theorem witness_InstructionWordCount : decodeWord 0 = none := by decide

theorem witness_AbsentBitsReachOnlyOperands :
    (∀ p, p < (11 : Fin 33).val → (0x8B000000#32).getLsbD (31 - p) = (0x8B0FFFFF#32).getLsbD (31 - p)) ∧
    (∀ p, p < (32 : Fin 33).val → (0x8B000000#32).getLsbD (31 - p) = (0x8B000000#32).getLsbD (31 - p)) := by decide

theorem witness_SignExtensionRoundTrip :
    (1 ≤ 12 ∧ -(2 ^ (12 - 1) : Int) ≤ -2048 ∧ (-2048 : Int) < 2 ^ (12 - 1)) ∧
    (1 ≤ 12 ∧ -(2 ^ (12 - 1) : Int) ≤ 2047 ∧ (2047 : Int) < 2 ^ (12 - 1)) ∧
    (1 ≤ 1 ∧ -(2 ^ (1 - 1) : Int) ≤ -1 ∧ (-1 : Int) < 2 ^ (1 - 1)) ∧
    ((-2048 : Int) ≤ -2048 ∧ (-2048 : Int) ≤ 2047) := by decide

theorem witness_OffsetOfBIsSignMagnitude :
    (-(2 ^ 25 - 1) : Int) ≤ -(2 ^ 25 - 1) ∧ (-(2 ^ 25 - 1) : Int) ≤ 2 ^ 25 - 1 ∧ (2 ^ 25 - 1 : Int) ≤ 2 ^ 25 - 1 := by
  decide

theorem witness_StepOnFormatB :
    (lined 0x14000000#32 6).input = lineSample 0x14000000#32 6 :: [] ∧ 6 ≤ (6 : Fin 33).val ∧
    0x14000000#32 &&& 0xFC000000#32 = 0x14000000#32 ∧
    (lined 0x16000005#32 32).input = lineSample 0x16000005#32 32 :: [] ∧ 6 ≤ (32 : Fin 33).val ∧
    0x16000005#32 &&& 0xFC000000#32 = 0x14000000#32 := by decide

theorem witness_StepOnFormatCB :
    (lined 0xB4000061#32 8).input = lineSample 0xB4000061#32 8 :: [] ∧ 8 ≤ (8 : Fin 33).val ∧
    0xB4000061#32 &&& 0xFF000000#32 = 0xB4000000#32 ∧
    (lined 0xB580001F#32 32).input = lineSample 0xB580001F#32 32 :: [] ∧ 8 ≤ (32 : Fin 33).val ∧
    0xB580001F#32 &&& 0xFF000000#32 = 0xB5000000#32 := by decide

theorem witness_StepOnFormatIM :
    (lined 0xD2801FE1#32 9).input = lineSample 0xD2801FE1#32 9 :: [] ∧ 9 ≤ (9 : Fin 33).val ∧
    0xD2801FE1#32 &&& 0xFF800000#32 = 0xD2800000#32 ∧
    (lined 0xF2C00000#32 32).input = lineSample 0xF2C00000#32 32 :: [] ∧ 9 ≤ (32 : Fin 33).val ∧
    0xF2C00000#32 &&& 0xFF800000#32 = 0xF2800000#32 := by decide

theorem witness_StepOnFormatI :
    (lined 0x913FFFFF#32 10).input = lineSample 0x913FFFFF#32 10 :: [] ∧ 10 ≤ (10 : Fin 33).val ∧
    0x913FFFFF#32 &&& 0xFFC00000#32 = 0x91000000#32 ∧
    (lined 0xD1200085#32 32).input = lineSample 0xD1200085#32 32 :: [] ∧ 10 ≤ (32 : Fin 33).val ∧
    0xD1200085#32 &&& 0xFFC00000#32 = 0xD1000000#32 := by decide

theorem witness_StepOnFormatR :
    (lined 0x8A030041#32 11).input = lineSample 0x8A030041#32 11 :: [] ∧ 11 ≤ (11 : Fin 33).val ∧
    11 ≤ (32 : Fin 33).val ∧
    0x8A030041#32 &&& 0xFFE00000#32 = 0x8A000000#32 ∧ 0x8B03FC41#32 &&& 0xFFE00000#32 = 0x8B000000#32 ∧
    0xAA0600A4#32 &&& 0xFFE00000#32 = 0xAA000000#32 ∧ 0xCB090107#32 &&& 0xFFE00000#32 = 0xCB000000#32 ∧
    0xD340094B#32 &&& 0xFFE00000#32 = 0xD3400000#32 ∧ 0xD37F1022#32 &&& 0xFFE00000#32 = 0xD3600000#32 ∧
    0xD380818D#32 &&& 0xFFE00000#32 = 0xD3800000#32 ∧ 0xEA1F03FF#32 &&& 0xFFE00000#32 = 0xEA000000#32 := by decide

theorem witness_StepOnFormatD :
    (lined 0xF81FF3E0#32 11).input = lineSample 0xF81FF3E0#32 11 :: [] ∧ 11 ≤ (11 : Fin 33).val ∧
    0xF81FF3E0#32 &&& 0xFFE00000#32 = 0xF8000000#32 ∧
    (lined 0xF8410C64#32 32).input = lineSample 0xF8410C64#32 32 :: [] ∧ 11 ≤ (32 : Fin 33).val ∧
    0xF8410C64#32 &&& 0xFFE00000#32 = 0xF8400000#32 := by decide

theorem witness_StepOnBreak :
    (lined 0xFEDEFFE7#32 32).input = lineSample 0xFEDEFFE7#32 32 :: [] ∧
    decode 0xFEDEFFE7#32 32 96 = .instr 96 .brk .brk 32 true .none ∧ 0 < 32 ∧ 31 < 32 := by decide

/-- For the seven statements that exec answers: a full word, a matched short line and an empty line. -/
theorem witness_ExecAnswers :
    (presenting 0x8B030041#32 32).input = ⟨false, some ⟨0x8B030041#32, 32⟩⟩ :: [] ∧ (32 : BitVec 6).toNat ≤ 32 ∧
    (presenting 0x8B030041#32 11).input = ⟨false, some ⟨0x8B030041#32, 11⟩⟩ :: [] ∧ (11 : BitVec 6).toNat ≤ 32 ∧
    (presenting 0 0).input = ⟨false, some ⟨0, 0⟩⟩ :: [] ∧ (0 : BitVec 6).toNat ≤ 32 := by decide

theorem witness_ExecWithoutALine :
    State.reset.event = .quiet ∧ (⟨96, [⟨true, none⟩], []⟩ : State).event = .reset ∧
    (⟨96, [⟨false, none⟩], []⟩ : State).event = .idle ∧ (presenting 0 33).event = .line ⟨0, 33⟩ ∧
    32 < (33 : BitVec 6).toNat ∧ (presenting 0 63).event = .line ⟨0, 63⟩ ∧ 32 < (63 : BitVec 6).toNat := by decide

theorem witness_ShortLineIsTooShort :
    (lined 0 0).input = lineSample 0 0 :: [] ∧ (0 : Fin 33).val < 6 ∧ (lined 0 5).input = lineSample 0 5 :: [] ∧
    (5 : Fin 33).val < 6 := by decide

theorem witness_UnmatchedShortLineIsUnknown :
    (lined 0xFFFFFFFF#32 6).input = lineSample 0xFFFFFFFF#32 6 :: [] ∧ 6 ≤ (6 : Fin 33).val ∧ (31 : Fin 33).val ≤ 31 ∧
    (lined 0xFFFFFFFF#32 31).input = lineSample 0xFFFFFFFF#32 31 :: [] ∧
    (∀ r ∈ table, 0xFFFFFFFF#32 &&& r.mask ≠ r.pattern) := by decide

theorem witness_UnmatchedWordIsData :
    (lined 0 32).input = lineSample 0 32 :: [] ∧ (∀ r ∈ table, (0 : Word) &&& r.mask ≠ r.pattern) := by decide

theorem witness_NeighbourKeysMatchNothing :
    11 ≤ (11 : Fin 33).val ∧ 11 ≤ (32 : Fin 33).val ∧ candidateKey 0xD320094B#32 11 = 1689 ∧
    candidateKey 0xD3A00000#32 11 = 1693 ∧ candidateKey 0xF8200000#32 11 = 1985 ∧
    candidateKey 0xF8600000#32 11 = 1987 := by decide

theorem witness_ResetStepGoesToBase :
    (⟨200, [⟨true, some ⟨0, 32⟩⟩], []⟩ : State).input = ⟨true, some ⟨0, 32⟩⟩ :: [] ∧
    (⟨200, [⟨true, none⟩], []⟩ : State).input = ⟨true, none⟩ :: [] := by decide

theorem witness_IdlingChangesNothing :
    (⟨200, [⟨false, none⟩], []⟩ : State).input = ⟨false, none⟩ :: [] ∧ State.reset.input = [] := by decide

theorem witness_RefusesExactlyOutOfDomain :
    refusal (step (presenting 0 33)) = some (.lengthOutOfDomain 33) ∧
    (presenting 0 33).input = ⟨false, some ⟨0, 33⟩⟩ :: [] ∧ 32 < (33 : BitVec 6).toNat ∧
    refusal (step (presenting 0 32)) = none := by decide

theorem witness_DomainInputNeverStops :
    inputInDomain [⟨true, none⟩, ⟨false, none⟩, lineSample 0 0, lineSample 0x14000005#32 32] = true := by decide

theorem witness_StepIsDecodeThenAdvance :
    (lined 0x14000005#32 32).input = lineSample 0x14000005#32 32 :: [] ∧
    (lined 0 0).input = lineSample 0 0 :: [] := by decide

theorem witness_RunOfLinesFromReset :
    ({ State.reset with input := lineSamples [(0x8B030041#32, 32), (0, 4)] } : State).input
      = lineSamples [(0x8B030041#32, 32), (0, 4)] := by decide

theorem witness_StepForgetsHistory :
    (lined 0x14000005#32 32).input = lineSample 0x14000005#32 32 :: [] ∧
    (⟨96, [lineSample 0x14000005#32 32, lineSample 0 0], [.data 92 0]⟩ : State).input
      = lineSample 0x14000005#32 32 :: [lineSample 0 0] ∧
    (lined 0x14000005#32 32).addrCtr = 96 ∧ (emitted (step (lined 0x14000005#32 32))).isSome = true := by decide

/-- For the invariants: a state with results and a reset behind it, about to take a line. -/
theorem witness_StepKeepsInvariants :
    (⟨100, [lineSample 0x14000005#32 32], [.data 96 0, .tooShort 100 4, .unknown 96 7 7 127]⟩ : State).resultsOk = true ∧
    (⟨100, [lineSample 0x14000005#32 32], [.data 96 0, .tooShort 100 4, .unknown 96 7 7 127]⟩ : State).aligned = true ∧
    (⟨100, [lineSample 0x14000005#32 32], [.data 96 0, .tooShort 100 4, .unknown 96 7 7 127]⟩ : State).labelled = true ∧
    (emitted (step ⟨100, [lineSample 0x14000005#32 32], [.data 96 0, .tooShort 100 4, .unknown 96 7 7 127]⟩)).isSome
      = true := by decide

/-- Each way a line is rendered, at the ends of its lengths. -/
theorem witness_RenderedLineHasItsParts :
    decode 0x7FFFFFFF#32 32 96 = .data 96 2147483647 ∧ decode 0x80000000#32 32 96 = .data 96 (-2147483648) ∧
    (0 : Fin 33).val < 6 ∧ (5 : Fin 33).val < 6 ∧ decode 0 6 96 = .unknown 96 6 6 0 ∧
    decode 0xFFFFFFFE#32 31 96 = .unknown 96 31 11 0b11111111111 := by decide

/-- 95_test_vectors.md section 2.1, negative zero and the smallest offset: the texts `B #0` and `B #-33554431`. -/
theorem test_render_b_sign :
    instrText .b true (extract .b 0x16000000#32) = "B\t#0".toList ∧
    instrText .b true (extract .b 0x17FFFFFF#32) = "B\t#-33554431".toList := by decide

theorem witness_TextBindingLeftAligns :
    ("01 1".toList.filter (fun c => c != ' ') = [false, true, true].map (fun b => if b then '1' else '0') ∧
      [false, true, true].length ≤ 32) ∧
    ("".toList.filter (fun c => c != ' ') = ([] : List Bool).map (fun b => if b then '1' else '0')) ∧
    ((List.replicate 33 '0').filter (fun c => c != ' ')
      = (List.replicate 33 false).map (fun b => if b then '1' else '0') ∧ 32 < (List.replicate 33 false).length) ∧
    ('2' ∈ "012".toList ∧ '2' ≠ '0' ∧ '2' ≠ '1' ∧ '2' ≠ ' ') := by decide

/-- The free value is not needed to run a word: a short line's operands are all that is open. -/
theorem test_short_line_operands_are_free :
    reportedOperands 0x8B030041#32 11 (.r 1 2 3 0) = freeOperands 0x8B030041#32 11 (.r 1 2 3 0) :=
  reportedOperands_short (by decide) _

end Sys2Proof.Tests
end

/-! ## The state and its invariants

What one step does is said once, as "decode the line, then advance" (`step_of_line`, `step_cases`); the invariants
on the emitted results and on their labels follow from what each of the four kinds of step does to the state. -/

namespace Sys2Proof

/-! ### What a match tells -/

theorem tryLength_eq_some_iff {w : Word} {len m n : Nat} {d : Descriptor} :
    tryLength w len m = some (n, d) ↔ m = n ∧ n ≤ len ∧ lookup n (candidateKey w n) = some d := by
  unfold tryLength
  split
  · simp only [Option.map_eq_some_iff, Prod.mk.injEq]
    constructor
    · rintro ⟨_, hd, rfl, rfl⟩
      exact ⟨rfl, ‹_›, hd⟩
    · rintro ⟨rfl, _, hd⟩
      exact ⟨d, hd, rfl, rfl⟩
  · simp only [reduceCtorEq, false_iff]
    rintro ⟨rfl, hle, _⟩
    contradiction

/-- A match is a row of the table whose key is in front of the word and fits the line. -/
theorem exists_row_of_matchLine {w : Word} {len n : Nat} {d : Descriptor} (h : matchLine w len = some (n, d)) :
    ∃ r ∈ table, r.len = n ∧ r.desc = d ∧ n ≤ len ∧ candidateKey w n = r.key := by
  obtain ⟨m, _, hm⟩ := List.exists_of_findSome?_eq_some h
  obtain ⟨rfl, hle, hlook⟩ := tryLength_eq_some_iff.mp hm
  obtain ⟨r, hr, hlen, hkey, hdesc⟩ := lookup_eq_some_iff.mp hlook
  exact ⟨r, hr, hlen, hdesc, hle, hkey.symm⟩

theorem candidateKey_lt (w : Word) {n : Nat} (h : n ≤ 32) : candidateKey w n < 2 ^ n := by
  have hpow : 2 ^ n * 2 ^ (32 - n) = 2 ^ 32 := by rw [← pow_add, Nat.add_sub_cancel' h]
  rw [candidateKey, Nat.div_lt_iff_lt_mul (by positivity), hpow]
  exact w.isLt

/-- The value of a data word is the signed reading of the word. -/
theorem sext_full_word (w : Word) : sext 32 (slice w 31 0) = w.toInt := by
  rw [sext_slice w 31 0 (by decide), BitVec.extractLsb'_eq_self]

/-! ### The ranges of extracted operands -/

theorem signMagnitude_range {magnitude : Nat} (sign : Bool) (h : magnitude < 2 ^ 25) :
    -(2 ^ 25 - 1 : Int) ≤ signMagnitude sign magnitude ∧ signMagnitude sign magnitude ≤ (2 ^ 25 - 1 : Int) := by
  unfold signMagnitude
  split <;> omega

theorem shiftAmountOf_mem {shiftCode : Nat} (h : shiftCode < 4) : shiftAmountOf shiftCode ∈ [0, 16, 32, 48] := by
  interval_cases shiftCode <;> decide

/-- Extracted operands are in the ranges of 10_state.md R19, whatever the word. -/
theorem extract_inRange (f : Format) (w : Word) : (extract f w).inRange = true := by
  cases f with
  | r | brk | nop => rfl
  | i => exact sext_fits (by decide) (slice_lt w 21 10)
  | cb => exact sext_fits (by decide) (slice_lt w 23 5)
  | d => exact decide_eq_true (slice_lt w 20 12)
  | im =>
    have himm : fieldImmIM w < 2 ^ 16 := slice_lt w 20 5
    have hcode : fieldShiftCode w < 2 ^ 2 := slice_lt w 22 21
    simp only [extract, opsIM, Operands.inRange, fitsUnsigned, Bool.and_eq_true, decide_eq_true_eq]
    exact ⟨⟨himm, hcode⟩, shiftAmountOf_mem hcode⟩
  | b =>
    have hmag : fieldMagnitude w < 2 ^ 25 := slice_lt w 24 0
    simp only [extract, opsB, Operands.inRange, fitsUnsigned, Bool.and_eq_true, decide_eq_true_eq]
    exact ⟨⟨hmag, (signMagnitude_range _ hmag).1⟩, (signMagnitude_range _ hmag).2⟩

end Sys2Proof

namespace Sys2Proof.Machine

/-! ### What a line means and what it is decoded to -/

theorem reportedOperands_inRange (f : Format) (w : Word) (len : Nat) :
    (reportedOperands w len (extract f w)).inRange = true := by
  unfold reportedOperands
  split
  · exact extract_inRange f w
  · exact freeOperands_inRange w len _

/-- Extracted offsets and shift amounts are the ones the other fields give (10_state.md R19). -/
theorem extract_exact (f : Format) (w : Word) : operandsExact (extract f w) = true := by
  cases f <;> simp [extract, operandsExact, opsB, opsIM]

/-- The four outcomes of 40_matcher_dispatch.md R59 for a line of the domain: how the step's decoder reads the
line, beside what `decode` answers. -/
theorem line_cases (w : Word) (len : Fin 33) :
    (len.val < 6 ∧ decodeLine w len.val = .tooShort ∧ ∀ a, decode w len a = .tooShort a len.val) ∨
    (∃ n d, matchLine w len.val = some (n, d) ∧ decodeLine w len.val = .instr (instrOf d.mnemonic w) ∧
      ∀ a, decode w len a = .instr a d.mnemonic d.format n (len.val == 32)
        (reportedOperands w len.val (extract d.format w))) ∨
    (len.val = 32 ∧ decodeLine w len.val = .data w.toInt ∧ ∀ a, decode w len a = .data a w.toInt) ∨
    (6 ≤ len.val ∧ len.val ≤ 31 ∧
      decodeLine w len.val = .unknown (min len.val 11) (candidateKey w (min len.val 11)) ∧
      ∀ a, decode w len a = .unknown a len.val (min len.val 11) (candidateKey w (min len.val 11))) := by
  have hdom : ¬ 32 < len.val := by omega
  by_cases h6 : len.val < 6
  · exact .inl ⟨h6, by simp [decodeLine, minLen, h6, hdom], by simp [decode, minLen, h6]⟩
  · rcases hm : matchLine w len.val with _ | ⟨n, d⟩
    · by_cases h32 : len.val = 32
      · rw [h32] at hm
        refine .inr (.inr (.inl ⟨h32, ?_, ?_⟩)) <;> simp [decodeLine, decode, minLen, hm, h32, sext_full_word]
      · refine .inr (.inr (.inr ⟨by omega, by omega, ?_, ?_⟩)) <;>
          simp [decodeLine, decode, minLen, longestPartialKey, h6, hm, h32, hdom]
    · refine .inr (.inl ⟨n, d, rfl, ?_, ?_⟩) <;> simp [decodeLine, decode, minLen, h6, hm, hdom]

/-- A result carries the address it is decoded at. -/
@[simp] theorem decode_addr (w : Word) (len : Fin 33) (a : Addr) : (decode w len a).addr = a := by
  obtain ⟨_, _, h⟩ | ⟨_, _, _, _, h⟩ | ⟨_, _, h⟩ | ⟨_, _, _, h⟩ := line_cases w len <;> rw [h a] <;> rfl

/-! ### Every decoded result is one the spec allows -/

theorem isRow_of_mem {r : Row} (h : r ∈ table) : isRow r.len r.desc.mnemonic r.desc.format = true :=
  List.any_eq_true.mpr ⟨r, h, by simp⟩

theorem row_format_ne_nop : ∀ r ∈ table, r.desc.format ≠ .nop := by decide

/-- BREAK has one row, and its key is a whole word (30_encoding.md R45). -/
theorem row_of_brk : ∀ r ∈ table, r.desc.mnemonic = .brk → r.len = 32 ∧ r.desc = ⟨.brk, .brk⟩ := by
  decide

/-- The result of a matched line is one 10_state.md R19 allows. -/
theorem instr_result_wf {r : Row} (hr : r ∈ table) {w : Word} {len : Fin 33} (hlen : r.len ≤ len.val) (a : Addr) :
    (Result.instr a r.desc.mnemonic r.desc.format r.len (len.val == 32)
      (reportedOperands w len.val (extract r.desc.format w))).wf = true := by
  have hexact : len.val = 32 → operandsExact (reportedOperands w len.val (extract r.desc.format w)) = true := by
    intro h
    rw [h, reportedOperands_full]
    exact extract_exact _ w
  have hbrk : r.desc.mnemonic = .brk → len.val = 32 := by
    intro h
    obtain ⟨hrow, _⟩ := row_of_brk r hr h
    omega
  simp only [Result.wf, isRow_of_mem hr, reportedOperands_hasShape, extract_hasShape, reportedOperands_inRange,
    bne_iff_ne, ne_eq, row_format_ne_nop r hr, Bool.and_eq_true, Bool.or_eq_true, Bool.not_eq_true',
    beq_eq_false_iff_ne, beq_iff_eq, not_false_eq_true, true_and]
  exact ⟨Decidable.not_or_of_imp hexact, Decidable.not_or_of_imp hbrk⟩

/-- A number whose word is data is a signed 32-bit number that spells no instruction
(47_break_nop_data.md R106). -/
theorem data_result_wf {w : Word} (h : decodeLine w 32 = .data w.toInt) (a : Addr) :
    (Result.data a w.toInt).wf = true := by
  have hfits : fitsSigned 32 w.toInt = true := by
    rw [← sext_full_word]
    exact sext_fits (by decide) (slice_lt w 31 0)
  simp [Result.wf, hfits, decodeWord, h]

/-- Whatever the line and the address, `decode` answers a result the spec allows. -/
theorem decode_wf (w : Word) (len : Fin 33) (a : Addr) : (decode w len a).wf = true := by
  obtain ⟨h6, _, h⟩ | ⟨n, d, hm, _, h⟩ | ⟨h32, hd, h⟩ | ⟨h6, h31, _, h⟩ := line_cases w len <;> rw [h a]
  · simpa [Result.wf] using h6
  · obtain ⟨r, hr, rfl, rfl, hle, _⟩ := exists_row_of_matchLine hm
    exact instr_result_wf hr hle a
  · rw [h32] at hd
    exact data_result_wf hd a
  · have hkey : candidateKey w (min len.val 11) < 2 ^ min len.val 11 := candidateKey_lt w (by omega)
    simp [Result.wf, h6, h31, hkey]

/-! ### One step decodes the line, then advances -/

/-- The meaning of a row's instruction answers the line as a match of that row (40_matcher_dispatch.md R64, R65).
BREAK is apart: its meaning never looks at the line's length. -/
theorem exec_instrOf_row {r : Row} (hr : r ∈ table) (hb : r.desc.mnemonic ≠ .brk) (w : Word) (s : State) :
    exec (instrOf r.desc.mnemonic w) s
      = answerInstr s r.desc.mnemonic r.desc.format r.len (extract r.desc.format w) := by
  simp only [table, List.mem_cons, List.not_mem_nil, or_false] at hr
  rcases hr with rfl | rfl | rfl | rfl | rfl | rfl | rfl | rfl | rfl | rfl | rfl | rfl | rfl | rfl | rfl | rfl |
    rfl | rfl
  any_goals rfl
  exact absurd rfl hb

/-- BREAK's meaning on a full word, as a match of its row: what is reported is exact and there is nothing to it. -/
theorem exec_brk_of_full {s : State} {ln : Line} (h : s.event = .line ln) (h32 : ln.len.toNat = 32) :
    exec .brk s = .next (s.emit (.instr s.addrCtr .brk .brk 32 true .none)) := by
  rw [exec, execBrk, answerLine_of_line h h32.le]

/-- What a matched row's instruction does with the line it is read from is what `decode` reports of the match. -/
theorem exec_of_match {s : State} {w : Word} {len : Fin 33} {n : Nat} {d : Descriptor}
    (h : s.event = .line (Line.of w len)) (hm : matchLine w len.val = some (n, d)) :
    exec (instrOf d.mnemonic w) s = .next (s.emit (.instr s.addrCtr d.mnemonic d.format n (len.val == 32)
      (reportedOperands w len.val (extract d.format w)))) := by
  have hlen : (Line.of w len).len.toNat ≤ 32 := by simpa using Nat.le_of_lt_succ len.isLt
  obtain ⟨r, hr, rfl, rfl, hle, _⟩ := exists_row_of_matchLine hm
  by_cases hb : r.desc.mnemonic = .brk
  · obtain ⟨hrow, hdesc⟩ := row_of_brk r hr hb
    have h32 : len.val = 32 := by omega
    rw [h32, hrow, hdesc]
    exact exec_brk_of_full h (by simpa using h32)
  · rw [exec_instrOf_row hr hb, answerInstr_of_line _ _ _ _ h hlen, of_len, of_word]

theorem step_of_quiet {s : State} (h : s.event = .quiet) : step s = .next s := by
  simp [step, h]

theorem step_of_reset {s : State} (h : s.event = .reset) : step s = .next s.takeReset := by
  simp [step, h]

theorem step_of_idle {s : State} (h : s.event = .idle) : step s = .next s.nextSample := by
  simp [step, h]

/-- 40_matcher_dispatch.md R70: the step of a line of the domain emits `Decode` of the line at the counter. -/
theorem step_of_line {s : State} {w : Word} {len : Fin 33} (h : s.event = .line (Line.of w len)) :
    step s = .next (s.emit (decode w len s.addrCtr)) := by
  have hlen : (Line.of w len).len.toNat ≤ 32 := by simpa using Nat.le_of_lt_succ len.isLt
  have hstep : step s = stepLine (Line.of w len) s := by simp [step, h]
  rw [hstep, stepLine, of_len, of_word]
  obtain ⟨_, hl, hd⟩ | ⟨n, d, hm, hl, hd⟩ | ⟨_, hl, hd⟩ | ⟨_, _, hl, hd⟩ := line_cases w len <;> rw [hl, hd]
  · exact (raiseCondition_of_line h hlen).trans (by rw [of_len])
  · exact exec_of_match h hm
  · exact answerLine_of_line h hlen
  · exact (raiseCondition_of_line h hlen).trans (by rw [of_len])

/-- 10_state.md R22: the step refuses a line out of the domain, naming its length. -/
theorem step_out_of_domain {s : State} {ln : Line} (h : s.event = .line ln) (hd : 32 < ln.len.toNat) :
    step s = .refused (.lengthOutOfDomain ln.len) := by
  have hstep : step s = stepLine ln s := by simp [step, h]
  rw [hstep, stepLine_out_of_domain s hd]

/-- A line whose length is in the domain is the line of its word and that length. -/
theorem eq_lineOf {ln : Line} (h : ln.len.toNat ≤ 32) : ln = Line.of ln.word ⟨ln.len.toNat, by omega⟩ := by
  simp [Line.of]

/-- Every event, with what a step does there: the five kinds of step, and all of them. -/
theorem step_cases (s : State) :
    (s.event = .quiet ∧ step s = .next s) ∨
    (s.event = .reset ∧ step s = .next s.takeReset) ∨
    (s.event = .idle ∧ step s = .next s.nextSample) ∨
    (∃ w len, s.event = .line (Line.of w len) ∧ step s = .next (s.emit (decode w len s.addrCtr))) ∨
    (∃ ln, s.event = .line ln ∧ 32 < ln.len.toNat ∧ step s = .refused (.lengthOutOfDomain ln.len)) := by
  cases h : s.event with
  | quiet => exact .inl ⟨rfl, step_of_quiet h⟩
  | reset => exact .inr (.inl ⟨rfl, step_of_reset h⟩)
  | idle => exact .inr (.inr (.inl ⟨rfl, step_of_idle h⟩))
  | line ln =>
    by_cases hd : ln.len.toNat ≤ 32
    · rw [eq_lineOf hd] at h ⊢
      exact .inr (.inr (.inr (.inl ⟨_, _, rfl, step_of_line h⟩)))
    · have hout : 32 < ln.len.toNat := by omega
      exact .inr (.inr (.inr (.inr ⟨ln, rfl, hout, step_out_of_domain h hout⟩)))

/-- A property of states that holds of what each kind of step leads to is kept by every step. -/
theorem step_preserves {P : State → Prop} {s s' : State} (h : P s) (hreset : P s.takeReset)
    (hidle : P s.nextSample) (hline : ∀ w len, P (s.emit (decode w len s.addrCtr))) (hstep : step s = .next s') :
    P s' := by
  obtain ⟨_, hs⟩ | ⟨_, hs⟩ | ⟨_, hs⟩ | ⟨w, len, _, hs⟩ | ⟨_, _, _, hs⟩ := step_cases s <;>
    rw [hs] at hstep <;> cases hstep
  · exact h
  · exact hreset
  · exact hidle
  · exact hline w len

/-! ### The emitted results -/

/-- Emitting a result keeps the emitted results allowed exactly when the result is. -/
theorem emit_resultsOk (s : State) (r : Result) : (s.emit r).resultsOk = (s.resultsOk && r.wf) := by
  simp [State.resultsOk]

/-- Settles O42: only a line of the domain adds a result, the one `decode` gives it, and `decode` answers results
the spec allows. -/
theorem stepKeepsResultsAllowed : Obligations.StepKeepsResultsAllowed := by
  intro s s' hok hstep
  refine step_preserves (P := fun t => t.resultsOk = true) hok hok hok (fun w len => ?_) hstep
  rw [emit_resultsOk, hok, decode_wf, Bool.and_true]

/-! ### The labels -/

theorem emit_aligned {s : State} {r : Result} (h : s.aligned = true) (hr : r.addr = s.addrCtr) :
    (s.emit r).aligned = true := by
  simp only [State.aligned, Bool.and_eq_true, beq_iff_eq] at h
  obtain ⟨hctr, hout⟩ := h
  have hnext : (s.addrCtr + 4#32).toNat % 4 = 0 := by bv_omega
  simp only [State.aligned, emit_addrCtr, emit_output, List.all_append, List.all_cons, List.all_nil, hctr, hout, hr,
    hnext, beq_self_eq_true, Bool.and_self]

theorem takeReset_aligned {s : State} (h : s.aligned = true) : s.takeReset.aligned = true := by
  obtain ⟨_, hout⟩ := Bool.and_eq_true_iff.mp h
  simp [State.aligned, hout]

/-- A list of labels goes on as its two parts do, the second from the last label of the first. -/
theorem stepsByFour_append (a : Addr) (l m : List Addr) :
    stepsByFour a (l ++ m) = (stepsByFour a l && stepsByFour (l.getLastD a) m) := by
  induction l generalizing a with
  | nil => rfl
  | cons b bs ih => rw [List.cons_append, stepsByFour, ih, stepsByFour, List.getLastD_cons, Bool.and_assoc]

/-- The labels are in order when they and the counter go on from one step before the base: the first of them is
then the base in either way. -/
theorem labelled_eq (s : State) :
    s.labelled = stepsByFour (Config.addrBase - Config.addrStep) (s.output.map Result.addr ++ [s.addrCtr]) := by
  have hfirst : Config.addrBase - Config.addrStep + Config.addrStep = Config.addrBase := by decide
  unfold State.labelled
  cases s.output.map Result.addr ++ [s.addrCtr] with
  | nil => rfl
  | cons a rest => simp only [stepsByFour, hfirst, Bool.or_self]

theorem emit_labelled {s : State} {r : Result} (h : s.labelled = true) (hr : r.addr = s.addrCtr) :
    (s.emit r).labelled = true := by
  rw [labelled_eq] at h ⊢
  rw [emit_output, emit_addrCtr, List.map_append, List.map_singleton, hr, stepsByFour_append, h]
  simp [stepsByFour, Config.addrStep]

theorem takeReset_labelled {s : State} (h : s.labelled = true) : s.takeReset.labelled = true := by
  rw [labelled_eq, stepsByFour_append, Bool.and_eq_true] at h ⊢
  obtain ⟨hout, _⟩ := h
  exact ⟨hout, by simp [stepsByFour, Config.addrBase]⟩

/-- Settles O43: a line's result carries the counter and the counter goes 4 up; a reset puts it to the base. -/
theorem stepKeepsLabels : Obligations.StepKeepsLabels := by
  constructor
  · intro s s' h
    exact step_preserves (P := fun t => t.aligned = true) h (takeReset_aligned h) h
      fun w len => emit_aligned h (decode_addr w len _)
  · intro s s' h
    exact step_preserves (P := fun t => t.labelled = true) h (takeReset_labelled h) h
      fun w len => emit_labelled h (decode_addr w len _)

/-- Settles O44: no result is emitted yet and the counter is the base. -/
theorem resetMeetsInvariants : Obligations.ResetMeetsInvariants := by
  have hresults : State.reset.resultsOk = true := by simp [State.resultsOk]
  have haligned : State.reset.aligned = true := by simp [State.aligned]
  have hlabelled : State.reset.labelled = true := by simp [State.labelled, stepsByFour, Config.addrBase]
  exact ⟨hresults, haligned, hlabelled⟩

/-- Settles O36, field by field of the reset state. -/
theorem resetValues : Obligations.ResetValues := ⟨reset_addrCtr, reset_output, reset_input⟩

/-! ### What is refused, and what a step depends on -/

/-- Settles O37: of the five kinds of step, only a line out of the domain refuses. -/
theorem refusesExactlyOutOfDomain : Obligations.RefusesExactlyOutOfDomain := by
  intro s r
  constructor
  · intro hstep
    obtain ⟨_, hs⟩ | ⟨_, hs⟩ | ⟨_, hs⟩ | ⟨_, _, _, hs⟩ | ⟨ln, hev, hout, hs⟩ := step_cases s <;>
      rw [hs] at hstep <;> cases hstep
    obtain ⟨rest, hin⟩ := event_eq_line hev
    exact ⟨ln, rest, hin, hout, rfl⟩
  · rintro ⟨ln, rest, hin, hout, rfl⟩
    exact step_out_of_domain (event_of_line hin) hout

/-- While a sample is on the ports, they are not quiet. -/
theorem event_ne_quiet {s : State} {p : Sample} {rest : List Sample} (h : s.input = p :: rest) :
    s.event ≠ .quiet := by
  obtain ⟨rst, line⟩ := p
  cases rst <;> cases line <;> simp [State.event, h]

/-- Settles O41: two states that show the same ports take the same kind of step, and what it emits is made from
the line and the counter. -/
theorem stepForgetsHistory : Obligations.StepForgetsHistory := by
  intro s t p restS restT hinS hinT hctr s' hstep
  have hev : s.event = t.event := event_congr hinS hinT
  obtain ⟨hs, _⟩ | ⟨hs, hnext⟩ | ⟨hs, hnext⟩ | ⟨w, len, hs, hnext⟩ | ⟨_, _, _, hnext⟩ := step_cases s
  · exact absurd hs (event_ne_quiet hinS)
  all_goals rw [hnext] at hstep; cases hstep
  all_goals rw [hev] at hs
  · exact ⟨t.takeReset, [], step_of_reset hs, by simp [hinS, hinT]⟩
  · exact ⟨t.nextSample, [], step_of_idle hs, by simp [hinS, hinT, hctr]⟩
  · exact ⟨_, [decode w len s.addrCtr], step_of_line hs, by simp [hinS, hinT, hctr]⟩

/-- Where no line is presented, answering one changes nothing. -/
theorem answerLine_without_line {s : State} (f : Line → Addr → Result)
    (h : s.event = .quiet ∨ s.event = .reset ∨ s.event = .idle) : answerLine s f = .next s := by
  obtain h | h | h := h <;> simp [answerLine, h]

/-- Settles O29: every instruction's meaning is an answer to the presented line. -/
theorem execWithoutALine : Obligations.ExecWithoutALine := by
  intro i s
  obtain ⟨result, hexec⟩ := exec_eq_answerLine i s
  rw [hexec]
  exact ⟨answerLine_without_line result, fun ln hev hout => answerLine_out_of_domain hev hout⟩

/-! ### The flat port -/

theorem formatCode_in_order : [Format.r, .i, .d, .b, .cb, .im, .brk, .nop].map formatCode = List.range 8 := by
  decide

theorem mnemonicCode_in_table_order : (table.map fun r => mnemonicCode r.desc.mnemonic) = List.range 18 := by
  decide

/-- The fields an INSTR result drives whatever its operands; the operand fields are then its shape's
(10_state.md R20). -/
theorem flat_instr (a : Addr) (m : Mnemonic) (f : Format) (n : Nat) (valid : Bool) (ops : Operands) :
    (Result.instr a m f n valid ops).flat = flatOperands
      { status := 0, addr := a.toNat, mnemonic := mnemonicCode m, format := formatCode f, matchLen := n,
        operandsValid := valid.toNat } ops := rfl

/-- Settles O47: the two orders of codes, then each tag, and INSTR by the operand shape. -/
theorem flatPortCodes : Obligations.FlatPortCodes := by
  refine ⟨formatCode_in_order, mnemonicCode_in_table_order, fun _ _ => rfl, fun _ _ => rfl, fun _ _ _ _ => rfl,
    fun a m f n valid => ?_⟩
  simp only [flat_instr, flatOperands, implies_true, and_self]

end Sys2Proof.Machine

/-! ## Memory: the address label and the bytes of a word (20_memory.md R27, R28) -/

namespace Sys2Proof.Machine

/-- Settles O9: in each of the four outcomes of a line, the address stands in the result's label and nowhere
else. -/
theorem addressIsTransparent : Obligations.AddressIsTransparent := by
  intro w len a b
  obtain ⟨_, _, h⟩ | ⟨_, _, _, _, h⟩ | ⟨_, _, h⟩ | ⟨_, _, _, h⟩ := line_cases w len
  all_goals rw [h a, h b, Result.relabel]

/-- Appending bit vectors shifts the left one above the right one, as numbers. -/
theorem toNat_append_eq_add {m n : Nat} (x : BitVec m) (y : BitVec n) :
    (x ++ y).toNat = x.toNat * 2 ^ n + y.toNat := by
  rw [BitVec.toNat_append, ← Nat.shiftLeft_add_eq_or_of_lt y.isLt, Nat.shiftLeft_eq]

/-- Under the big order the byte at the lowest address weighs the most (20_memory.md R27). -/
theorem toNat_wordOfBytes_big (b0 b1 b2 b3 : BitVec 8) :
    (wordOfBytes .big b0 b1 b2 b3).toNat
      = b0.toNat * 2 ^ 24 + b1.toNat * 2 ^ 16 + b2.toNat * 2 ^ 8 + b3.toNat := by
  have happend : (wordOfBytes .big b0 b1 b2 b3).toNat
      = ((b0.toNat * 2 ^ 8 + b1.toNat) * 2 ^ 8 + b2.toNat) * 2 ^ 8 + b3.toNat := by
    simp only [wordOfBytes, toNat_append_eq_add]
  rw [happend]
  ring

/-- The little order reads the bytes as the big order reads them backwards. -/
theorem wordOfBytes_little (b0 b1 b2 b3 : BitVec 8) :
    wordOfBytes .little b0 b1 b2 b3 = wordOfBytes .big b3 b2 b1 b0 := rfl

/-- Settles O46: the weights of the bytes under the big order, and the little order as its mirror. -/
theorem wordOfBytesByOrder : Obligations.WordOfBytesByOrder := by
  intro b0 b1 b2 b3
  rw [wordOfBytes_little]
  exact ⟨toNat_wordOfBytes_big b0 b1 b2 b3, toNat_wordOfBytes_big b3 b2 b1 b0⟩

end Sys2Proof.Machine

/-! ## The encoding: the table, the decoder against the encoder, and the text of a line (30_encoding.md) -/

namespace Sys2Proof

open Laws

/-! ### The opcode table -/

/-- Two rows whose keys agree on the shorter one's length are one row (30_encoding.md R49). -/
theorem row_eq_of_common_prefix : ∀ r ∈ table, ∀ q ∈ table,
    r.key / 2 ^ (r.len - min r.len q.len) = q.key / 2 ^ (q.len - min r.len q.len) → r = q := by
  decide

theorem row_len_mem : ∀ r ∈ table, r.len ∈ [6, 8, 9, 10, 11, 32] ∧ r.key < 2 ^ r.len := by decide

/-- Settles O5: two rows of the table are different rows, so their keys differ on the shorter one's length. -/
theorem tableIsPrefixFree : Obligations.TableIsPrefixFree := by
  have hnodup : table.Nodup := by decide
  exact ⟨rfl, row_len_mem, hnodup.pairwise_of_forall_ne fun r hr q hq hne hpre =>
    hne (row_eq_of_common_prefix r hr q hq hpre)⟩

theorem row_len_le : ∀ r ∈ table, r.len ≤ 32 := by decide

theorem row_len_mem_trialOrder : ∀ r ∈ table, r.len ∈ trialOrder := by decide

/-! ### The matcher -/

/-- The leading bits of a candidate key are the shorter candidate key. -/
theorem candidateKey_div (w : Word) {m n : Nat} (hmn : m ≤ n) (hn : n ≤ 32) :
    candidateKey w n / 2 ^ (n - m) = candidateKey w m := by
  have hexp : 32 - n + (n - m) = 32 - m := by omega
  rw [candidateKey, candidateKey, Nat.div_div_eq_div_mul, ← pow_add, hexp]

/-- A word begins with the key of one row at most. -/
theorem row_unique {w : Word} {r q : Row} (hr : r ∈ table) (hq : q ∈ table) (hrk : candidateKey w r.len = r.key)
    (hqk : candidateKey w q.len = q.key) : r = q := by
  apply row_eq_of_common_prefix r hr q hq
  rw [← hrk, ← hqk, candidateKey_div w (min_le_left _ _) (row_len_le r hr),
    candidateKey_div w (min_le_right _ _) (row_len_le q hq)]

/-- The matcher finds the row whose key the line begins with. -/
theorem matchLine_of_key {w : Word} {len : Nat} {r : Row} (hr : r ∈ table) (hlen : r.len ≤ len)
    (hkey : candidateKey w r.len = r.key) : matchLine w len = some (r.len, r.desc) := by
  have htry : tryLength w len r.len = some (r.len, r.desc) :=
    tryLength_eq_some_iff.mpr ⟨rfl, hlen, lookup_eq_some_iff.mpr ⟨r, hr, rfl, hkey.symm, rfl⟩⟩
  have hsome : (matchLine w len).isSome = true :=
    List.findSome?_isSome_iff.mpr ⟨r.len, row_len_mem_trialOrder r hr, by rw [htry]; rfl⟩
  obtain ⟨⟨n, d⟩, hm⟩ := Option.isSome_iff_exists.mp hsome
  obtain ⟨q, hq, rfl, rfl, _, hqk⟩ := exists_row_of_matchLine hm
  rw [hm, row_unique hr hq hkey hqk]

/-! ### The decoder of a full word -/

/-- A full word is an instruction exactly when it begins with a row's key, and then it is that row's. -/
theorem decodeWord_eq_some_iff {w : Word} {i : Instr} :
    decodeWord w = some i ↔ ∃ r ∈ table, candidateKey w r.len = r.key ∧ instrOf r.desc.mnemonic w = i := by
  have hmatch : decodeWord w = (matchLine w 32).map fun m => instrOf m.2.mnemonic w := by
    unfold decodeWord decodeLine
    cases matchLine w 32 <;> rfl
  rw [hmatch, Option.map_eq_some_iff]
  constructor
  · rintro ⟨⟨n, d⟩, hm, rfl⟩
    obtain ⟨r, hr, rfl, rfl, _, hkey⟩ := exists_row_of_matchLine hm
    exact ⟨r, hr, hkey, rfl⟩
  · rintro ⟨r, hr, hkey, rfl⟩
    exact ⟨_, matchLine_of_key hr (row_len_le r hr) hkey, rfl⟩

theorem decodeWord_isSome_iff {w : Word} :
    (decodeWord w).isSome = true ↔ ∃ r ∈ table, candidateKey w r.len = r.key := by
  rw [Option.isSome_iff_exists]
  constructor
  · rintro ⟨i, hi⟩
    obtain ⟨r, hr, hkey, _⟩ := decodeWord_eq_some_iff.mp hi
    exact ⟨r, hr, hkey⟩
  · rintro ⟨r, hr, hkey⟩
    exact ⟨_, decodeWord_eq_some_iff.mpr ⟨r, hr, hkey, rfl⟩⟩

/-- Settles O3: each literal is closed, so the decoder runs on it. -/
theorem writtenOutWordsDecode : Obligations.WrittenOutWordsDecode := by
  refine ⟨?_, ?_, ?_, ?_, ?_, ?_, ?_, ?_⟩ <;> decide

/-! ### Numbers and their bit patterns -/

theorem fieldOf_natCast {n v : Nat} (h : v < 2 ^ n) : fieldOf n v = v := by
  have hcast : (v : Int) % 2 ^ n = ((v % 2 ^ n : Nat) : Int) := by push_cast; rfl
  rw [fieldOf, hcast, Int.toNat_natCast, Nat.mod_eq_of_lt h]

/-- The pattern of a field's signed reading is the field (44_i_format.md R87). -/
theorem fieldOf_sext {n v : Nat} (h : v < 2 ^ n) : fieldOf n (sext n v) = v := by
  have hmod : sext n v % 2 ^ n = (v : Int) % 2 ^ n := by
    unfold sext
    split
    · exact Int.sub_emod_right _ _
    · rfl
  rw [fieldOf, hmod]
  exact fieldOf_natCast h

/-- The signed reading of a number's pattern is the number, if the pattern can hold it (44_i_format.md R87). -/
theorem sext_fieldOf {n : Nat} {x : Int} (hn : 0 < n) (h : fitsSigned n x = true) : sext n (fieldOf n x) = x := by
  simp only [fitsSigned, Bool.and_eq_true, decide_eq_true_eq] at h
  obtain ⟨hlow, hhigh⟩ := h
  have hpattern : fieldOf n x = (BitVec.ofInt n x).toNat := by
    rw [fieldOf, BitVec.toNat_ofInt]
    push_cast
    rfl
  rw [hpattern, sext_toNat n hn, BitVec.toInt_ofInt_eq_self hn hlow hhigh]

/-! ### A word put together from a key and the bits after it -/

/-- A slice that ends below the key reads the bits after the key. -/
theorem slice_place {len key rest hi lo : Nat} (hlo : lo ≤ hi) (hhi : hi + 1 ≤ 32 - len) :
    slice (place len key rest) hi lo = rest / 2 ^ lo % 2 ^ (hi + 1 - lo) := by
  have hdvd : 2 ^ (hi + 1) ∣ 2 ^ (32 - len) := pow_dvd_pow 2 hhi
  have hdvd32 : 2 ^ (hi + 1) ∣ 2 ^ 32 := pow_dvd_pow 2 (by omega)
  have hsplit : 2 ^ (hi + 1) = 2 ^ lo * 2 ^ (hi + 1 - lo) := by rw [← pow_add]; congr 1; omega
  have hlow : (place len key rest).toNat % 2 ^ (hi + 1) = rest % 2 ^ (hi + 1) := by
    obtain ⟨c, hc⟩ := hdvd.mul_left key
    rw [place, BitVec.toNat_ofNat, Nat.mod_mod_of_dvd _ hdvd32, hc, Nat.mul_add_mod]
  rw [hsplit] at hlow
  rw [slice, ← Nat.mod_mul_right_div_self, hlow, Nat.mod_mul_right_div_self]

/-- A word is its leading bits and the bits after them. -/
theorem place_of_candidateKey {w : Word} {len key : Nat} (h : candidateKey w len = key) :
    place len key (w.toNat % 2 ^ (32 - len)) = w := by
  rw [← h, place, candidateKey, Nat.div_add_mod', BitVec.ofNat_toNat, BitVec.setWidth_eq]

theorem place_mod {len key rest : Nat} (h : rest < 2 ^ (32 - len)) :
    (place len key rest).toNat % 2 ^ (32 - len) = rest := by
  have hdvd : 2 ^ (32 - len) ∣ 2 ^ 32 := pow_dvd_pow 2 (Nat.sub_le _ _)
  rw [place, BitVec.toNat_ofNat, Nat.mod_mod_of_dvd _ hdvd, Nat.mul_add_mod_self_right, Nat.mod_eq_of_lt h]

/-! ### The fields of an encoded word, by format (30_encoding.md R39 to R44)

Each field of the word is read back from the bits after the key, where the encoder has put it. -/

theorem fieldRd_place {len key rest : Nat} {rd : Reg} (hlen : len ≤ 27) (h : rest % 2 ^ 5 = rd.toNat) :
    fieldRd (place len key rest) = rd := by
  rw [fieldRd, slice_place (by decide) (by omega), pow_zero, Nat.div_one, h, BitVec.ofNat_toNat, BitVec.setWidth_eq]

theorem fieldRt_place {len key rest : Nat} {rt : Reg} (hlen : len ≤ 27) (h : rest % 2 ^ 5 = rt.toNat) :
    fieldRt (place len key rest) = rt :=
  fieldRd_place hlen h

theorem fieldRn_place {len key rest : Nat} {rn : Reg} (hlen : len ≤ 22) (h : rest / 2 ^ 5 % 2 ^ 5 = rn.toNat) :
    fieldRn (place len key rest) = rn := by
  rw [fieldRn, slice_place (by decide) (by omega), h, BitVec.ofNat_toNat, BitVec.setWidth_eq]

theorem fields_placeR (key : Nat) (rd rn rm : Reg) (shamt : BitVec 6) :
    fieldRd (place 11 key (restR rd rn rm shamt)) = rd ∧ fieldRn (place 11 key (restR rd rn rm shamt)) = rn ∧
    fieldRm (place 11 key (restR rd rn rm shamt)) = rm ∧
    fieldShamt (place 11 key (restR rd rn rm shamt)) = shamt := by
  have hrd := rd.isLt; have hrn := rn.isLt; have hrm := rm.isLt; have hshamt := shamt.isLt
  refine ⟨fieldRd_place (by decide) ?_, fieldRn_place (by decide) ?_, BitVec.eq_of_toNat_eq ?_,
    BitVec.eq_of_toNat_eq ?_⟩
  · unfold restR; omega
  · unfold restR; omega
  · rw [fieldRm, slice_place (by decide) (by decide), BitVec.toNat_ofNat]; unfold restR; omega
  · rw [fieldShamt, slice_place (by decide) (by decide), BitVec.toNat_ofNat]; unfold restR; omega

theorem fields_placeI (key : Nat) (rd rn : Reg) {imm : Int} (h : fitsSigned 12 imm = true) :
    fieldRd (place 10 key (restI rd rn imm)) = rd ∧ fieldRn (place 10 key (restI rd rn imm)) = rn ∧
    fieldImmI (place 10 key (restI rd rn imm)) = imm := by
  have hrd := rd.isLt; have hrn := rn.isLt; have himm := fieldOf_lt 12 imm
  have hslice : slice (place 10 key (restI rd rn imm)) 21 10 = fieldOf 12 imm := by
    rw [slice_place (by decide) (by decide)]; unfold restI; omega
  refine ⟨fieldRd_place (by decide) ?_, fieldRn_place (by decide) ?_, ?_⟩
  · unfold restI; omega
  · unfold restI; omega
  · rw [fieldImmI, hslice, sext_fieldOf (by decide) h]

theorem fields_placeD (key : Nat) (rt rn : Reg) {imm : Nat} (h : imm < 2 ^ 9) :
    fieldRt (place 11 key (restD rt rn imm)) = rt ∧ fieldRn (place 11 key (restD rt rn imm)) = rn ∧
    fieldImmD (place 11 key (restD rt rn imm)) = imm := by
  have hrt := rt.isLt; have hrn := rn.isLt
  refine ⟨fieldRt_place (by decide) ?_, fieldRn_place (by decide) ?_, ?_⟩
  · unfold restD; omega
  · unfold restD; omega
  · rw [fieldImmD, slice_place (by decide) (by decide), restD, fieldOf_natCast h]; omega

theorem fields_placeCB (key : Nat) (rt : Reg) {imm : Int} (h : fitsSigned 19 imm = true) :
    fieldRt (place 8 key (restCB rt imm)) = rt ∧ fieldImmCB (place 8 key (restCB rt imm)) = imm := by
  have hrt := rt.isLt; have himm := fieldOf_lt 19 imm
  have hslice : slice (place 8 key (restCB rt imm)) 23 5 = fieldOf 19 imm := by
    rw [slice_place (by decide) (by decide)]; unfold restCB; omega
  refine ⟨fieldRt_place (by decide) ?_, ?_⟩
  · unfold restCB; omega
  · rw [fieldImmCB, hslice, sext_fieldOf (by decide) h]

theorem fields_placeIM (key : Nat) (rd : Reg) {imm shiftCode : Nat} (h : imm < 2 ^ 16) (hc : shiftCode < 2 ^ 2) :
    fieldRd (place 9 key (restIM rd imm shiftCode)) = rd ∧
    fieldImmIM (place 9 key (restIM rd imm shiftCode)) = imm ∧
    fieldShiftCode (place 9 key (restIM rd imm shiftCode)) = shiftCode := by
  have hrd := rd.isLt
  refine ⟨fieldRd_place (by decide) ?_, ?_, ?_⟩
  · unfold restIM; omega
  · rw [fieldImmIM, slice_place (by decide) (by decide), restIM, fieldOf_natCast h]; omega
  · rw [fieldShiftCode, slice_place (by decide) (by decide), restIM, fieldOf_natCast h, fieldOf_natCast hc]; omega

theorem fields_placeB (key : Nat) (sign : Bool) {magnitude : Nat} (h : magnitude < 2 ^ 25) :
    fieldSign (place 6 key (restB sign magnitude)) = sign ∧
    fieldMagnitude (place 6 key (restB sign magnitude)) = magnitude := by
  have hsign : slice (place 6 key (restB sign magnitude)) 25 25 = sign.toNat := by
    have hbit := sign.toNat_lt
    rw [slice_place (by decide) (by decide), restB, fieldOf_natCast h]; omega
  constructor
  · rw [fieldSign, hsign]; cases sign <;> rfl
  · rw [fieldMagnitude, slice_place (by decide) (by decide), restB, fieldOf_natCast h]; omega

/-! ### Decoding an encoding -/

/-- The encoder writes the key of the instruction's own row, for all 18 instructions (30_encoding.md R47). -/
theorem encode_key (i : Instr) : EncodeKey.Statement i := by
  cases i with
  | b => exact EncodeKey.b _ _
  | cbz => exact EncodeKey.cbz _ _
  | cbnz => exact EncodeKey.cbnz _ _
  | movz => exact EncodeKey.movz _ _ _
  | movk => exact EncodeKey.movk _ _ _
  | addi => exact EncodeKey.addi _ _ _
  | subi => exact EncodeKey.subi _ _ _
  | and => exact EncodeKey.and _ _ _ _
  | add => exact EncodeKey.add _ _ _ _
  | orr => exact EncodeKey.orr _ _ _ _
  | sub => exact EncodeKey.sub _ _ _ _
  | lsr => exact EncodeKey.lsr _ _ _ _
  | lsl => exact EncodeKey.lsl _ _ _ _
  | asr => exact EncodeKey.asr _ _ _ _
  | eor => exact EncodeKey.eor _ _ _ _
  | stur => exact EncodeKey.stur _ _ _
  | ldur => exact EncodeKey.ldur _ _ _
  | brk => exact EncodeKey.brk

/-- The fields of a well-formed instruction's word are the instruction's operands. -/
theorem instrOf_encode {i : Instr} (h : i.wf = true) : instrOf i.mnemonic (encode i) = i := by
  cases i with
  | brk => rfl
  | b sign magnitude =>
    simp only [Instr.mnemonic, encode, instrOf, fields_placeB _ sign (of_decide_eq_true h)]
  | cbz rt imm | cbnz rt imm =>
    simp only [Instr.mnemonic, encode, instrOf, fields_placeCB _ rt h]
  | movz rd imm shiftCode | movk rd imm shiftCode =>
    simp only [Instr.wf, fitsUnsigned, Bool.and_eq_true, decide_eq_true_eq] at h
    obtain ⟨himm, hcode⟩ := h
    simp only [Instr.mnemonic, encode, instrOf, fields_placeIM _ rd himm hcode]
  | addi rd rn imm | subi rd rn imm =>
    simp only [Instr.mnemonic, encode, instrOf, fields_placeI _ rd rn h]
  | stur rt rn imm | ldur rt rn imm =>
    simp only [Instr.mnemonic, encode, instrOf, fields_placeD _ rt rn (of_decide_eq_true h)]
  | and rd rn rm shamt | add rd rn rm shamt | orr rd rn rm shamt | sub rd rn rm shamt | lsr rd rn rm shamt
  | lsl rd rn rm shamt | asr rd rn rm shamt | eor rd rn rm shamt =>
    simp only [Instr.mnemonic, encode, instrOf, fields_placeR]

/-- Settles O1: the encoding begins with the key of the instruction's row, so the matcher finds that row, and the
row's fields read the operands back. -/
theorem decodeOfEncode : Obligations.DecodeOfEncode := by
  intro i hwf
  obtain ⟨r, hr, hmnem, hkey⟩ := encode_key i hwf
  exact decodeWord_eq_some_iff.mpr ⟨r, hr, hkey, by rw [hmnem, instrOf_encode hwf]⟩

/-! ### Encoding a decoding -/

/-- The bits after the key that the encoder writes for the fields of a word, by format. -/
def restOf : Format → Word → Nat
  | .r, w => restR (fieldRd w) (fieldRn w) (fieldRm w) (fieldShamt w)
  | .i, w => restI (fieldRd w) (fieldRn w) (fieldImmI w)
  | .d, w => restD (fieldRt w) (fieldRn w) (fieldImmD w)
  | .cb, w => restCB (fieldRt w) (fieldImmCB w)
  | .im, w => restIM (fieldRd w) (fieldImmIM w) (fieldShiftCode w)
  | .b, w => restB (fieldSign w) (fieldMagnitude w)
  | .brk, _ => 0
  | .nop, _ => 0

/-- How long the keys of a format are (30_encoding.md R47); 0 for NOP, which has no key. -/
def formatKeyLen : Format → Nat
  | .r => 11 | .i => 10 | .d => 11 | .cb => 8 | .im => 9 | .b => 6 | .brk => 32 | .nop => 0

theorem row_len_eq : ∀ r ∈ table, r.len = formatKeyLen r.desc.format := by decide

/-- The encoder puts the row's key in front of the fields it reads from the word. -/
theorem encode_instrOf {r : Row} (hr : r ∈ table) (w : Word) :
    encode (instrOf r.desc.mnemonic w) = place r.len r.key (restOf r.desc.format w) := by
  simp only [table, List.mem_cons, List.not_mem_nil, or_false] at hr
  rcases hr with rfl | rfl | rfl | rfl | rfl | rfl | rfl | rfl | rfl | rfl | rfl | rfl | rfl | rfl | rfl | rfl |
    rfl | rfl <;> rfl

/-- The fields of a format other than D cover all the bits after the key (30_encoding.md R39 to R45). -/
theorem restOf_eq_mod {f : Format} (hd : f ≠ .d) (hn : f ≠ .nop) (w : Word) :
    restOf f w = w.toNat % 2 ^ (32 - formatKeyLen f) := by
  cases f with
  | d => exact absurd rfl hd
  | nop => exact absurd rfl hn
  | brk => exact (Nat.mod_one _).symm
  | r =>
    simp only [restOf, restR, fieldRd, fieldRn, fieldRm, fieldShamt, slice, BitVec.toNat_ofNat, formatKeyLen]
    omega
  | i =>
    have himm : fieldOf 12 (fieldImmI w) = slice w 21 10 := fieldOf_sext (slice_lt w 21 10)
    simp only [restOf, restI, himm, fieldRd, fieldRn, slice, BitVec.toNat_ofNat, formatKeyLen]
    omega
  | cb =>
    have himm : fieldOf 19 (fieldImmCB w) = slice w 23 5 := fieldOf_sext (slice_lt w 23 5)
    simp only [restOf, restCB, himm, fieldRt, slice, BitVec.toNat_ofNat, formatKeyLen]
    omega
  | im =>
    have himm : fieldOf 16 (fieldImmIM w) = slice w 20 5 := fieldOf_natCast (slice_lt w 20 5)
    have hcode : fieldOf 2 (fieldShiftCode w) = slice w 22 21 := fieldOf_natCast (slice_lt w 22 21)
    simp only [restOf, restIM, himm, hcode, fieldRd, slice, BitVec.toNat_ofNat, formatKeyLen]
    omega
  | b =>
    have hmag : fieldOf 25 (fieldMagnitude w) = slice w 24 0 := fieldOf_natCast (slice_lt w 24 0)
    have hbit : slice w 25 25 < 2 := slice_lt w 25 25
    have hsign : (fieldSign w).toNat = slice w 25 25 := by
      unfold fieldSign
      interval_cases slice w 25 25 <;> rfl
    simp only [restOf, restB, hmag, hsign, slice, formatKeyLen]
    omega

/-- Clearing the two bits that format D does not read leaves the bits around them (30_encoding.md R41). -/
theorem toNat_clear_unread (w : Word) :
    (w &&& 0xFFFFF3FF#32).toNat = w.toNat / 2 ^ 12 * 2 ^ 12 + w.toNat % 2 ^ 10 := by
  have hmask : 0xFFFFF3FF#32 = BitVec.allOnes 20 ++ (0#2 ++ BitVec.allOnes 10) := by decide
  have hlow : w.extractLsb' 10 2 ++ w.extractLsb' 0 10 = w.extractLsb' 0 12 :=
    BitVec.extractLsb'_append_extractLsb'_eq_extractLsb' rfl
  have hsplit : w.extractLsb' 12 20 ++ (w.extractLsb' 10 2 ++ w.extractLsb' 0 10) = w := by
    rw [hlow]
    exact BitVec.extractLsb'_append_extractLsb' (w := 20) (len := 12)
  have hand : w &&& 0xFFFFF3FF#32 = w.extractLsb' 12 20 ++ (0#2 ++ w.extractLsb' 0 10) := by
    conv_lhs => rw [← hsplit, hmask]
    rw [BitVec.and_append, BitVec.and_append, BitVec.and_allOnes, BitVec.and_allOnes, BitVec.and_zero]
  rw [hand, Machine.toNat_append_eq_add, Machine.toNat_append_eq_add, BitVec.extractLsb'_toNat,
    BitVec.extractLsb'_toNat, Nat.shiftRight_eq_div_pow, BitVec.toNat_ofNat]
  omega

/-- The fields of format D cover the bits after the key but for the two that are cleared. -/
theorem restOf_d_eq_mod (w : Word) : restOf .d w = (w &&& 0xFFFFF3FF#32).toNat % 2 ^ 21 := by
  have himm : fieldOf 9 (fieldImmD w) = slice w 20 12 := fieldOf_natCast (slice_lt w 20 12)
  rw [toNat_clear_unread]
  simp only [restOf, restD, himm, fieldRt, fieldRn, slice, BitVec.toNat_ofNat]
  omega

/-- A word that begins with the key of a row outside format D is the encoding of what the row makes of it. -/
theorem encode_instrOf_of_ne_d {r : Row} (hr : r ∈ table) (hd : r.desc.format ≠ .d) {w : Word}
    (hkey : candidateKey w r.len = r.key) : encode (instrOf r.desc.mnemonic w) = w := by
  rw [encode_instrOf hr, restOf_eq_mod hd (Machine.row_format_ne_nop r hr), ← row_len_eq r hr,
    place_of_candidateKey hkey]

/-- With the key of a row of format D, it is the encoding but for the two bits no field reads. -/
theorem encode_instrOf_of_d {r : Row} (hr : r ∈ table) (hd : r.desc.format = .d) {w : Word}
    (hkey : candidateKey w r.len = r.key) : encode (instrOf r.desc.mnemonic w) = w &&& 0xFFFFF3FF#32 := by
  have hlen : r.len = 11 := by rw [row_len_eq r hr, hd]; rfl
  have hkept : candidateKey (w &&& 0xFFFFF3FF#32) 11 = candidateKey w 11 := by
    rw [candidateKey, candidateKey, toNat_clear_unread]; omega
  rw [hlen, ← hkept] at hkey
  rw [encode_instrOf hr, hd, restOf_d_eq_mod, hlen]
  exact place_of_candidateKey hkey

theorem row_format_d_iff :
    ∀ r ∈ table, r.desc.format = .d ↔ r.desc.mnemonic = .stur ∨ r.desc.mnemonic = .ldur := by
  decide

/-- Settles O2: the row that matched gives the key, and its format's fields give the bits after the key. -/
theorem encodeOfDecode : Obligations.EncodeOfDecode := by
  intro w i hdec
  obtain ⟨r, hr, hkey, rfl⟩ := decodeWord_eq_some_iff.mp hdec
  refine ⟨instrOf_wf _ w, ?_⟩
  rw [instrOf_mnemonic]
  split
  next hm => exact encode_instrOf_of_d hr ((row_format_d_iff r hr).mpr hm) hkey
  next hm => exact encode_instrOf_of_ne_d hr (fun hd => hm ((row_format_d_iff r hr).mp hd)) hkey

/-! ### How many words are instructions -/

/-- The words that begin with a row's key are as many as the bits after the key can be. -/
def keyWordsEquiv {r : Row} (hr : r ∈ table) :
    {w : Word // candidateKey w r.len = r.key} ≃ Fin (2 ^ (32 - r.len)) where
  toFun w := ⟨w.val.toNat % 2 ^ (32 - r.len), Nat.mod_lt _ (Nat.two_pow_pos _)⟩
  invFun v := ⟨place r.len r.key v, candidateKey_place (row_len_mem r hr).2 (row_len_le r hr) v.isLt⟩
  left_inv w := Subtype.ext (place_of_candidateKey w.property)
  right_inv v := Fin.ext (place_mod v.isLt)

/-- The instruction words, each with the one row whose key it begins with. -/
noncomputable def instrWordsEquiv :
    (Σ r : {r : Row // r ∈ table}, {w : Word // candidateKey w r.val.len = r.val.key}) ≃
      {w : Word // (decodeWord w).isSome = true} :=
  Equiv.ofBijective (fun x => ⟨x.2.val, decodeWord_isSome_iff.mpr ⟨x.1.val, x.1.property, x.2.property⟩⟩) (by
    constructor
    · rintro ⟨⟨r, hr⟩, ⟨w, hw⟩⟩ ⟨⟨q, hq⟩, ⟨v, hv⟩⟩ h
      obtain rfl : w = v := congrArg Subtype.val h
      obtain rfl : r = q := row_unique hr hq hw hv
      rfl
    · rintro ⟨w, hw⟩
      obtain ⟨r, hr, hkey⟩ := decodeWord_isSome_iff.mp hw
      exact ⟨⟨⟨r, hr⟩, ⟨w, hkey⟩⟩, rfl⟩)

theorem card_instrWords : Nat.card {w : Word // (decodeWord w).isSome = true} = 146800641 := by
  have hkeys : ∀ r : {r : Row // r ∈ table},
      Nat.card {w : Word // candidateKey w r.val.len = r.val.key} = 2 ^ (32 - r.val.len) := fun r => by
    rw [Nat.card_congr (keyWordsEquiv r.property), Nat.card_fin]
  have hsum : ∑ r : {r : Row // r ∈ table}, 2 ^ (32 - r.val.len) = 146800641 := by decide
  calc Nat.card {w : Word // (decodeWord w).isSome = true}
      = ∑ r : {r : Row // r ∈ table}, Nat.card {w : Word // candidateKey w r.val.len = r.val.key} := by
        rw [← Nat.card_congr instrWordsEquiv, Nat.card_sigma]
    _ = ∑ r : {r : Row // r ∈ table}, 2 ^ (32 - r.val.len) := Finset.sum_congr rfl fun r _ => hkeys r
    _ = 146800641 := hsum

theorem card_dataWords : Nat.card {w : Word // (decodeWord w).isNone = true} = 4148166655 := by
  have hall : Nat.card Word = 2 ^ 32 := by
    rw [Nat.card_congr (BitVec.equivFin (m := 32)).toEquiv, Nat.card_fin]
  have hsplit := Nat.card_congr (Equiv.sumCompl fun w : Word => (decodeWord w).isSome = true)
  have hnot : ∀ w : Word, ¬ (decodeWord w).isSome = true ↔ (decodeWord w).isNone = true := fun w => by simp
  rw [Nat.card_sum, card_instrWords, hall, Nat.card_congr (Equiv.subtypeEquivRight hnot)] at hsplit
  omega

/-- A full word that is no instruction is a data word with its signed value (47_break_nop_data.md R105, R106). -/
theorem decodeLine_of_decodeWord_none {w : Word} (h : decodeWord w = none) : decodeLine w 32 = .data w.toInt := by
  obtain ⟨hlt, _⟩ | ⟨_, _, _, hline, _⟩ | ⟨_, hline, _⟩ | ⟨_, hle, _⟩ := Machine.line_cases w 32
  · exact absurd hlt (by decide)
  · have hline32 : decodeLine w 32 = _ := hline
    rw [decodeWord, hline32] at h
    cases h
  · exact hline
  · exact absurd hle (by decide)

/-- Settles O7: the instruction words are counted row by row, the data words are the rest of the 2^32. -/
theorem instructionWordCount : Obligations.InstructionWordCount :=
  ⟨card_instrWords, card_dataWords, fun _ => decodeLine_of_decodeWord_none⟩

/-! ### The offset of format B -/

/-- The operands of format B are read from bit 25 and the 25 bits below it (30_encoding.md R52). -/
theorem extract_b_eq (w : Word) : extract .b w = .b (w.getLsbD 25) (w.extractLsb' 0 25).toNat
    (signMagnitude (w.getLsbD 25) (w.extractLsb' 0 25).toNat) := by
  rw [extract, opsB, fieldSign_eq, fieldMagnitude_eq]

/-- The word of a B instruction has the B key and the instruction's operands. -/
theorem extract_encode_b (sign : Bool) {magnitude : Nat} (h : magnitude < 2 ^ 25) :
    encode (.b sign magnitude) &&& 0xFC000000#32 = 0x14000000#32 ∧
    extract .b (encode (.b sign magnitude)) = .b sign magnitude (signMagnitude sign magnitude) := by
  constructor
  · have hrow : (⟨6, 0b000101, .b, .b⟩ : Row) ∈ table := by decide
    exact (candidateKey_eq_iff _ hrow).mp (candidateKey_place (by decide) (by decide) (restB_lt _ _))
  · obtain ⟨hsign, hmag⟩ := fields_placeB 0b000101 sign h
    rw [extract, opsB, encode, hsign, hmag]

theorem signMagnitude_natAbs (x : Int) : signMagnitude (decide (x < 0)) x.natAbs = x := by
  unfold signMagnitude
  split
  next h => have := of_decide_eq_true h; omega
  next h => simp only [decide_eq_true_eq] at h; omega

/-- Settles O12: the offset is the sign-magnitude reading of the two fields, and a number in the range is read back
from the word that the encoder makes of its sign and magnitude. -/
theorem offsetOfBIsSignMagnitude : Obligations.OffsetOfBIsSignMagnitude := by
  refine ⟨fun w => ?_, fun x hlow hhigh => ?_, by decide, by decide, by decide⟩
  · obtain ⟨hlow, hhigh⟩ := signMagnitude_range (w.getLsbD 25) (w.extractLsb' 0 25).isLt
    exact ⟨_, extract_b_eq w, rfl, hlow, hhigh⟩
  · obtain ⟨hkey, hops⟩ := extract_encode_b (decide (x < 0)) (magnitude := x.natAbs) (by omega)
    rw [signMagnitude_natAbs] at hops
    exact ⟨_, _, _, hkey, hops⟩

end Sys2Proof

namespace Sys2Proof.Machine

/-! ### From text to the ports (30_encoding.md R38) -/

/-- A binary digit as a character. -/
def digitChar (b : Bool) : Char := if b then '1' else '0'

theorem bitOf_digitChar (b : Bool) : bitOf (digitChar b) = some b.toNat := by cases b <;> rfl

theorem bitOf_eq_none {c : Char} (h0 : c ≠ '0') (h1 : c ≠ '1') : bitOf c = none := by
  rw [bitOf, if_neg h0, if_neg h1]

/-- The number that digits spell after the number read so far. -/
def appendBits (acc : Nat) (bits : List Bool) : Nat := bits.foldl (fun n b => Nat.bit b n) acc

theorem appendBits_cons (acc : Nat) (b : Bool) (bits : List Bool) :
    appendBits acc (b :: bits) = appendBits (Nat.bit b acc) bits := rfl

theorem uintFrom_digits (acc : Nat) (bits : List Bool) :
    uintFrom acc (bits.map digitChar) = some (appendBits acc bits) := by
  induction bits generalizing acc with
  | nil => rfl
  | cons b bits ih =>
    rw [List.map_cons, uintFrom, bitOf_digitChar, Option.bind_some, ← Nat.bit_val, ih, appendBits_cons]

/-- A character that is no digit has no number. -/
theorem uintFrom_eq_none {c : Char} {cs : List Char} (hc : c ∈ cs) (hbit : bitOf c = none) (acc : Nat) :
    uintFrom acc cs = none := by
  induction cs generalizing acc with
  | nil => cases hc
  | cons d cs ih =>
    rw [uintFrom]
    rcases List.mem_cons.mp hc with rfl | hmem
    · rw [hbit, Option.bind_none]
    · cases bitOf d with
      | none => rfl
      | some b => exact ih hmem _

/-- The digits read so far keep their places above the digits that follow. -/
theorem testBit_appendBits_add (acc : Nat) (bits : List Bool) (j : Nat) :
    (appendBits acc bits).testBit (bits.length + j) = acc.testBit j := by
  induction bits generalizing acc j with
  | nil => rw [List.length_nil, Nat.zero_add]; rfl
  | cons b bits ih =>
    have hplace : (b :: bits).length + j = bits.length + (j + 1) := by rw [List.length_cons]; omega
    rw [appendBits_cons, hplace, ih]
    exact Nat.testBit_bit_succ j b acc

/-- The first digit is the most significant: digit `p` stands at bit `length - 1 - p`. -/
theorem testBit_appendBits {bits : List Bool} {p : Nat} (hp : p < bits.length) (acc : Nat) :
    (appendBits acc bits).testBit (bits.length - 1 - p) = bits.getD p false := by
  induction bits generalizing acc p with
  | nil => cases hp
  | cons b bits ih =>
    rw [appendBits_cons]
    cases p with
    | zero =>
      have h := testBit_appendBits_add (Nat.bit b acc) bits 0
      rw [Nat.testBit_bit_zero] at h
      exact h
    | succ p =>
      have hplace : (b :: bits).length - 1 - (p + 1) = bits.length - 1 - p := by rw [List.length_cons]; omega
      rw [hplace, List.getD_cons_succ]
      exact ih (Nat.lt_of_succ_lt_succ hp) _

/-- Left-aligned in a word, digit `p` stands at bit `31 - p`, and zeros follow the digits. -/
theorem getLsbD_leftAligned {bits : List Bool} (hlen : bits.length ≤ 32) {p : Nat} (hp : p < 32) :
    (BitVec.ofNat 32 (appendBits 0 bits * 2 ^ (32 - bits.length))).getLsbD (31 - p) = bits.getD p false := by
  rw [BitVec.getLsbD_ofNat, Nat.testBit_mul_two_pow]
  by_cases hdigit : p < bits.length
  · have hshift : 31 - p - (32 - bits.length) = bits.length - 1 - p := by omega
    have hle : 32 - bits.length ≤ 31 - p := by omega
    have hlt : 31 - p < 32 := by omega
    rw [hshift, testBit_appendBits hdigit, decide_eq_true hle, decide_eq_true hlt, Bool.true_and, Bool.true_and]
  · have hgt : ¬ 32 - bits.length ≤ 31 - p := by omega
    rw [decide_eq_false hgt, Bool.false_and, Bool.and_false, List.getD_eq_default _ _ (by omega)]

/-- The text binding of a line that is digits once its spaces are gone. -/
theorem textToPorts_digits {cs : List Char} {bits : List Bool} (h : stripSpaces cs = bits.map digitChar) :
    textToPorts cs = if 32 < bits.length then .error .lineTooLong
      else .ok ⟨BitVec.ofNat 32 (appendBits 0 bits * 2 ^ (32 - bits.length)), BitVec.ofNat 6 bits.length⟩ := by
  rw [textToPorts, h, uintFrom_digits, List.length_map]

/-- Another character than a digit and a space is refused, wherever it stands. -/
theorem textToPorts_of_foreign {cs : List Char} {c : Char} (hc : c ∈ cs) (h0 : c ≠ '0') (h1 : c ≠ '1')
    (hs : c ≠ ' ') : textToPorts cs = .error .nonBinaryCharacter := by
  have hkept : c ∈ stripSpaces cs := List.mem_filter.mpr ⟨hc, bne_iff_ne.mpr hs⟩
  rw [textToPorts, uintFrom_eq_none hkept (bitOf_eq_none h0 h1)]

/-- Settles O45: the digits spell a number whose bits are the digits, most significant first, and the binding
shifts it to the front of the word. -/
theorem textBindingLeftAligns : Obligations.TextBindingLeftAligns := by
  refine ⟨fun cs bits hcs hlen => ?_, fun cs bits hcs hlen => ?_, fun cs c => textToPorts_of_foreign,
    by decide, by decide⟩
  · refine ⟨_, (textToPorts_digits hcs).trans (if_neg (Nat.not_lt.mpr hlen)), ?_,
      fun p => getLsbD_leftAligned hlen⟩
    rw [BitVec.toNat_ofNat, Nat.mod_eq_of_lt (by omega)]
  · exact (textToPorts_digits hcs).trans (if_pos hlen)

/-! ### The digits of a line and their groups (30_encoding.md R57) -/

theorem digits_length (w : Word) (len : Nat) : (digits w len).length = len := by
  rw [digits, List.length_map, List.length_range]

theorem digits_take (w : Word) (len n : Nat) : (digits w len).take n = digits w (min n len) := by
  rw [digits, digits, ← List.map_take, List.take_range]

theorem space_notMem_digits (w : Word) (len : Nat) : ' ' ∉ digits w len := by
  intro h
  obtain ⟨p, _, hp⟩ := List.mem_map.mp h
  split at hp <;> cases hp

theorem stripSpaces_eq_self {cs : List Char} (h : ' ' ∉ cs) : stripSpaces cs = cs :=
  List.filter_eq_self.mpr fun _ hc => bne_iff_ne.mpr (ne_of_mem_of_not_mem hc h)

theorem stripSpaces_append_space (cs ds : List Char) :
    stripSpaces (cs ++ ' ' :: ds) = stripSpaces cs ++ stripSpaces ds :=
  List.filter_append ..

/-- Cutting into groups inserts spaces and nothing else. -/
theorem stripSpaces_cutGroups (ns : List Nat) {cs : List Char} (h : ' ' ∉ cs) :
    stripSpaces (cutGroups ns cs) = cs := by
  induction ns generalizing cs with
  | nil => exact stripSpaces_eq_self h
  | cons n ns ih =>
    rw [cutGroups]
    split
    · exact stripSpaces_eq_self h
    · have htake : ' ' ∉ cs.take n := fun hm => h (List.mem_of_mem_take hm)
      have hdrop : ' ' ∉ cs.drop n := fun hm => h (List.mem_of_mem_drop hm)
      rw [stripSpaces_append_space, stripSpaces_eq_self htake, ih hdrop, List.take_append_drop]

/-- A group is cut off when digits are left after it. -/
theorem cutGroups_of_lt {n : Nat} (ns : List Nat) {cs : List Char} (h : n < cs.length) :
    cutGroups (n :: ns) cs = cs.take n ++ ' ' :: cutGroups ns (cs.drop n) := by
  rw [cutGroups, if_neg (by omega)]

/-- The last group takes all the digits that are left. -/
theorem cutGroups_of_le {n : Nat} (ns : List Nat) {cs : List Char} (h : cs.length ≤ n) :
    cutGroups (n :: ns) cs = cs := by
  rw [cutGroups, if_pos h]

/-- Settles O48: digits are no spaces; of the 32 digits of a full word each group but the last leaves some over, so
the word is cut at the ends of its groups; and the example lines are closed. -/
theorem renderedGroupsKeepTheDigits : Obligations.RenderedGroupsKeepTheDigits := by
  refine ⟨fun f w len => stripSpaces_cutGroups _ (space_notMem_digits w len), fun w d hd => ?_,
    by decide, by decide, by decide⟩
  have hlen : d.length = 32 := by rw [hd, digits_length]
  refine ⟨?_, ?_, ?_, ?_, ?_, ?_, cutGroups_of_le [] hlen.le⟩ <;>
    simp [groupLengths, cutGroups_of_lt, cutGroups_of_le, hlen, List.intercalate]

/-! ### The parts of a rendered line (30_encoding.md R57, 60_exceptions.md R119) -/

/-- The mnemonic of an exact result, and its operand list where there is one. -/
theorem instrText_valid (m : Mnemonic) (ops : Operands) :
    instrText m true ops = mnemonicText m ++
      if operandList m ops = [] then [] else ['\t'] ++ operandListText (operandList m ops) := by
  rw [instrText]
  cases operandList m ops with
  | nil => exact (List.append_nil _).symm
  | cons o os => rfl

/-- A sign-magnitude number is written with a minus sign exactly when its sign is 1 and it is not zero. -/
theorem signedDecimal_signMagnitude (sign : Bool) (magnitude : Nat) :
    signedDecimal (signMagnitude sign magnitude)
      = (if sign = true ∧ 0 < magnitude then ['-'] else []) ++ decimal magnitude := by
  have habs : (signMagnitude sign magnitude).natAbs = magnitude := by cases sign <;> simp [signMagnitude]
  have hneg : signMagnitude sign magnitude < 0 ↔ sign = true ∧ 0 < magnitude := by
    cases sign <;> simp [signMagnitude]
  rw [signedDecimal, habs]
  by_cases h : sign = true ∧ 0 < magnitude
  · rw [if_pos (hneg.mpr h), if_pos h]; rfl
  · rw [if_neg (mt hneg.mp h), if_neg h]; rfl

/-- The text of a B instruction has the offset as its one operand. -/
theorem instrText_b (w : Word) :
    instrText .b true (extract .b w)
      = "B\t#".toList ++ (if w.getLsbD 25 = true ∧ 0 < (w.extractLsb' 0 25).toNat then ['-'] else [])
        ++ decimal (w.extractLsb' 0 25).toNat := by
  have hoffset : instrText .b true (extract .b w) = "B\t#".toList
      ++ signedDecimal (signMagnitude (w.getLsbD 25) (w.extractLsb' 0 25).toNat) := by
    rw [extract_b_eq, instrText_valid]; rfl
  rw [hoffset, signedDecimal_signMagnitude, List.append_assoc]

/-- A data result is that of a full word, with the word's signed value. -/
theorem decode_eq_data {w : Word} {len : Fin 33} {a addr : Addr} {v : Int} (h : decode w len a = .data addr v) :
    len.val = 32 ∧ addr = a ∧ v = w.toInt := by
  obtain ⟨_, _, hd⟩ | ⟨_, _, _, _, hd⟩ | ⟨h32, _, hd⟩ | ⟨_, _, _, hd⟩ := line_cases w len <;>
    rw [hd] at h <;> cases h
  exact ⟨h32, rfl, rfl⟩

theorem decode_of_short {w : Word} {len : Fin 33} (h : len.val < 6) (a : Addr) :
    decode w len a = .tooShort a len.val := by
  rw [decode]
  exact if_pos h

/-- An unknown opcode is reported with the line's own length and its leading `min(L, 11)` bits. -/
theorem decode_eq_unknown {w : Word} {len : Fin 33} {a addr : Addr} {l n k : Nat}
    (h : decode w len a = .unknown addr l n k) :
    addr = a ∧ l = len.val ∧ n = min len.val 11 ∧ k = candidateKey w (min len.val 11) := by
  obtain ⟨_, _, hd⟩ | ⟨_, _, _, _, hd⟩ | ⟨_, _, hd⟩ | ⟨_, _, _, hd⟩ := line_cases w len <;>
    rw [hd] at h <;> cases h
  exact ⟨rfl, rfl, rfl, rfl⟩

/-- Settles O49: the outcome says which of the four texts the line is rendered as. -/
theorem renderedLineHasItsParts : Obligations.RenderedLineHasItsParts := by
  refine ⟨fun w a m f n ops => ?_, instrText_b, fun w a addr v h => ?_, fun w len a h => ?_,
    fun w len a addr l n k h => ?_⟩
  · rw [renderChars, instrText_valid]
    simp only [List.append_assoc, List.cons_append, List.nil_append]
  · obtain ⟨_, rfl, rfl⟩ := decode_eq_data h
    rw [h, renderChars]
    simp only [List.append_assoc, List.cons_append, List.nil_append]
  · rw [decode_of_short h, renderChars]
    simp only [List.append_assoc, List.cons_append]
    rfl
  · obtain ⟨rfl, rfl, rfl, rfl⟩ := decode_eq_unknown h
    rw [h, renderChars, digits_take, min_comm]
    simp only [List.append_assoc, List.cons_append]
    rfl

end Sys2Proof.Machine

/-! ## The matcher and the dispatch (40_matcher_dispatch.md) -/

namespace Sys2Proof

/-! ### The matcher against the comparators (R63) -/

/-- The priority loop finds the row whose gated comparator holds. -/
theorem matchLine_eq_some_iff {w : Word} {len n : Nat} {d : Descriptor} :
    matchLine w len = some (n, d) ↔
      ∃ r ∈ table, r.len = n ∧ r.desc = d ∧ n ≤ len ∧ w &&& r.mask = r.pattern := by
  constructor
  · intro hm
    obtain ⟨r, hr, rfl, rfl, hle, hkey⟩ := exists_row_of_matchLine hm
    exact ⟨r, hr, rfl, rfl, hle, (candidateKey_eq_iff w hr).mp hkey⟩
  · rintro ⟨r, hr, rfl, rfl, hle, hcmp⟩
    exact matchLine_of_key hr hle ((candidateKey_eq_iff w hr).mpr hcmp)

/-- The priority loop finds nothing exactly when no gated comparator holds. -/
theorem matchLine_eq_none_iff {w : Word} {len : Nat} :
    matchLine w len = none ↔ ∀ r ∈ table, r.len ≤ len → w &&& r.mask ≠ r.pattern := by
  rw [Option.eq_none_iff_forall_not_mem]
  constructor
  · intro h r hr hle hcmp
    exact h (r.len, r.desc) (matchLine_eq_some_iff.mpr ⟨r, hr, rfl, rfl, hle, hcmp⟩)
  · rintro h ⟨n, d⟩ hm
    obtain ⟨r, hr, rfl, rfl, hle, hcmp⟩ := matchLine_eq_some_iff.mp hm
    exact h r hr hle hcmp

/-- What the loop finds is the hit of a trial before which every trial of the order missed. -/
theorem first_hit_of_matchLine {w : Word} {len n : Nat} {d : Descriptor} (h : matchLine w len = some (n, d)) :
    ∃ before after, trialOrder = before ++ n :: after ∧ tryLength w len n = some (n, d) ∧
      ∀ m ∈ before, tryLength w len m = none := by
  obtain ⟨before, m, after, horder, hhit, hmiss⟩ := List.findSome?_eq_some_iff.mp h
  obtain ⟨rfl, _⟩ := tryLength_eq_some_iff.mp hhit
  exact ⟨before, after, horder, hhit, hmiss⟩

/-- A trial hits only at the length of a row whose key is in front of the word. -/
theorem exists_row_of_tryLength {w : Word} {len n : Nat} (h : (tryLength w len n).isSome = true) :
    ∃ r ∈ table, r.len = n ∧ candidateKey w r.len = r.key := by
  obtain ⟨⟨_, d⟩, hhit⟩ := Option.isSome_iff_exists.mp h
  obtain ⟨rfl, _, hlook⟩ := tryLength_eq_some_iff.mp hhit
  obtain ⟨r, hr, rfl, hkey, _⟩ := lookup_eq_some_iff.mp hlook
  exact ⟨r, hr, rfl, hkey.symm⟩

/-- Settles O6: the loop and the comparators find the same row, and a word begins with one row's key at most. -/
theorem matcherAgreesWithComparators : Obligations.MatcherAgreesWithComparators := by
  intro w len _
  refine ⟨fun n d => matchLine_eq_some_iff, fun n d => first_hit_of_matchLine, fun n m hn hm => ?_⟩
  obtain ⟨r, hr, rfl, hrk⟩ := exists_row_of_tryLength hn
  obtain ⟨q, hq, rfl, hqk⟩ := exists_row_of_tryLength hm
  rw [row_unique hr hq hrk hqk]

/-! ### What the bits beyond the end of a line can reach (R69 d) -/

theorem candidateKey_eq_ushiftRight (w : Word) (n : Nat) : candidateKey w n = (w >>> (32 - n)).toNat := by
  rw [candidateKey, BitVec.toNat_ushiftRight, Nat.shiftRight_eq_div_pow]

/-- Words that agree on the leading bits of a line have the same candidate keys within it. -/
theorem candidateKey_congr {w v : Word} {len n : Nat}
    (h : ∀ p, p < len → w.getLsbD (31 - p) = v.getLsbD (31 - p)) (hn : n ≤ len) (hlen : len ≤ 32) :
    candidateKey w n = candidateKey v n := by
  rw [candidateKey_eq_ushiftRight, candidateKey_eq_ushiftRight]
  congr 1
  apply BitVec.eq_of_getLsbD_eq
  intro i _
  rw [BitVec.getLsbD_ushiftRight, BitVec.getLsbD_ushiftRight]
  by_cases hi : i < n
  · have hplace : 32 - n + i = 31 - (n - 1 - i) := by omega
    rw [hplace, h _ (by omega)]
  · rw [BitVec.getLsbD_of_ge w _ (by omega), BitVec.getLsbD_of_ge v _ (by omega)]

/-- The matcher reads no bit beyond the end of the line. -/
theorem matchLine_congr {w v : Word} {len : Nat}
    (h : ∀ p, p < len → w.getLsbD (31 - p) = v.getLsbD (31 - p)) (hlen : len ≤ 32) :
    matchLine w len = matchLine v len := by
  have htry : tryLength w len = tryLength v len := by
    funext n
    unfold tryLength
    split
    next hn => rw [candidateKey_congr h hn hlen]
    next => rfl
  rw [matchLine, matchLine, htry]

/-- Words that agree on all 32 bits are equal. -/
theorem word_eq_of_leading_bits {w v : Word} (h : ∀ p, p < 32 → w.getLsbD (31 - p) = v.getLsbD (31 - p)) :
    w = v := by
  apply BitVec.eq_of_getLsbD_eq
  intro i hi
  have hplace : i = 31 - (31 - i) := by omega
  rw [hplace]
  exact h _ (by omega)

/-! ### Which rows a line of a given length can hold (R68) -/

/-- The rows by the length of their keys, up to a bound. -/
theorem row_of_len_le : ∀ r ∈ table, 6 ≤ r.len ∧
    (r.len ≤ 7 → r.desc.mnemonic = .b) ∧
    (r.len ≤ 8 → r.desc.format = .b ∨ r.desc.format = .cb) ∧
    (r.len ≤ 9 → r.desc.format = .b ∨ r.desc.format = .cb ∨ r.desc.format = .im) ∧
    (r.len ≤ 10 → r.desc.format = .b ∨ r.desc.format = .cb ∨ r.desc.format = .im ∨ r.desc.format = .i) ∧
    (r.len ≤ 31 → r.desc.mnemonic ≠ .brk) := by
  decide

/-! ### When a line means an instruction -/

/-- A line means an instruction only if a row matched, and then it is that row's. -/
theorem exists_match_of_decodeLine {w : Word} {len : Nat} {i : Instr} (h : decodeLine w len = .instr i) :
    ∃ n d, matchLine w len = some (n, d) ∧ i = instrOf d.mnemonic w := by
  by_cases hlen : len < 33
  · obtain ⟨_, hl, _⟩ | ⟨n, d, hm, hl, _⟩ | ⟨_, hl, _⟩ | ⟨_, _, hl, _⟩ := Machine.line_cases w ⟨len, hlen⟩ <;>
      rw [hl] at h <;> cases h
    exact ⟨n, d, hm, rfl⟩
  · rw [decodeLine, if_pos (by omega)] at h
    cases h

/-- The instruction of a full word is what the line of its 32 bits means. -/
theorem decodeLine_of_decodeWord_some {w : Word} {i : Instr} (h : decodeWord w = some i) :
    decodeLine w 32 = .instr i := by
  unfold decodeWord at h
  split at h
  next j hl => rw [hl, Option.some.inj h]
  next => cases h

end Sys2Proof

namespace Sys2Proof.Machine

/-! ### The outcome of a line (R67 to R69) -/

/-- Settles O8: a matched line has room for its row's key, so its length bounds the row; the other outcomes carry
the length that leads to them. -/
theorem outcomesByLength : Obligations.OutcomesByLength := by
  intro w len a
  obtain ⟨h6, _, h⟩ | ⟨n, d, hm, _, h⟩ | ⟨h32, _, h⟩ | ⟨h6, h31, _, h⟩ := line_cases w len <;> rw [h a]
  · exact ⟨h6, rfl, rfl⟩
  · obtain ⟨r, hr, rfl, rfl, hle, _⟩ := exists_row_of_matchLine hm
    obtain ⟨hmin, h7, h8, h9, h10, h31⟩ := row_of_len_le r hr
    exact ⟨hmin.trans hle, hle, isRow_of_mem hr, rfl, rfl, fun h => h7 (hle.trans h), fun h => h8 (hle.trans h.le),
      fun h => h9 (hle.trans h.le), fun h => h10 (hle.trans h.le), fun h => h31 (hle.trans h)⟩
  · exact ⟨h32, rfl, rfl⟩
  · exact ⟨h6, h31, rfl, rfl, rfl, rfl⟩

/-- Below 32 bits, words that agree on the bits of the line decode alike but for the operands. -/
theorem decode_withoutOperands_congr {w v : Word} {len : Fin 33}
    (h : ∀ p, p < len.val → w.getLsbD (31 - p) = v.getLsbD (31 - p)) (hshort : len.val ≠ 32) (a : Addr) :
    (decode w len a).withoutOperands = (decode v len a).withoutOperands := by
  have hlen : len.val ≤ 32 := Nat.le_of_lt_succ len.isLt
  have hmatch : matchLine w len.val = matchLine v len.val := matchLine_congr h hlen
  have hkey : candidateKey w (min len.val longestPartialKey) = candidateKey v (min len.val longestPartialKey) :=
    candidateKey_congr h (min_le_left _ _) hlen
  unfold decode
  rw [hmatch, hkey, if_neg hshort, if_neg hshort]
  split
  · rfl
  · cases matchLine v len.val <;> rfl

/-- Settles O10: a full line has no bit beyond its end, and below 32 bits the matcher and the attempted key read
only the line's own bits. -/
theorem absentBitsReachOnlyOperands : Obligations.AbsentBitsReachOnlyOperands := by
  intro w v len a h
  by_cases hfull : len.val = 32
  · rw [hfull] at h
    rw [word_eq_of_leading_bits h]
    exact ⟨rfl, fun _ => rfl⟩
  · exact ⟨decode_withoutOperands_congr h hfull a, fun hlen => absurd hlen hfull⟩

/-- R67: a line of 6 to 31 bits that no row matches is unknown. -/
theorem decode_of_unmatched {w : Word} {len : Fin 33} (h6 : 6 ≤ len.val) (h31 : len.val ≤ 31)
    (hm : matchLine w len.val = none) (a : Addr) :
    decode w len a = .unknown a len.val (min len.val 11) (candidateKey w (min len.val 11)) := by
  obtain ⟨hlt, _⟩ | ⟨_, _, hsome, _⟩ | ⟨h32, _⟩ | ⟨_, _, _, h⟩ := line_cases w len
  · omega
  · rw [hm] at hsome
    cases hsome
  · omega
  · exact h a

/-! ### The step of a line (R60, R67, R70) -/

/-- The state after a line has been answered, as a record. -/
theorem emit_eq {s : State} {p : Sample} {rest : List Sample} (h : s.input = p :: rest) (r : Result) :
    s.emit r = { addrCtr := s.addrCtr + 4, input := rest, output := s.output ++ [r] } := by
  have hemit : s.emit r = ⟨s.addrCtr + 4, s.input.tail, s.output ++ [r]⟩ := rfl
  rw [hemit, h, List.tail_cons]

/-- R70: a line of the domain on the ports is decoded at the counter, and the counter goes 4 up. -/
theorem step_of_lineSample {s : State} {w : Word} {len : Fin 33} {rest : List Sample}
    (h : s.input = lineSample w len :: rest) :
    step s = .next
      { addrCtr := s.addrCtr + 4, input := rest, output := s.output ++ [decode w len s.addrCtr] } := by
  rw [step_of_line (event_of_line h), emit_eq h]

/-- Settles O30: below 6 bits `decode` looks at no bit of the word. -/
theorem shortLineIsTooShort : Obligations.ShortLineIsTooShort := by
  intro s w len rest hin hlen
  rw [step_of_lineSample hin, decode_of_short hlen]

/-- Settles O31: where no gated comparator holds, the matcher finds nothing. -/
theorem unmatchedShortLineIsUnknown : Obligations.UnmatchedShortLineIsUnknown := by
  intro s w len rest hin h6 h31 hcmp
  rw [step_of_lineSample hin, decode_of_unmatched h6 h31 (matchLine_eq_none_iff.mpr hcmp),
    candidateKey_eq_ushiftRight]

/-! ### The step runs the decoded instruction (R64) -/

theorem step_of_instr {s : State} {ln : Line} {rest : List Sample} {i : Instr}
    (hin : s.input = ⟨false, some ln⟩ :: rest) (hdec : decodeLine ln.word ln.len.toNat = .instr i) :
    step s = exec i s := by
  have hstep : step s = stepLine ln s := by simp [step, event_of_line hin]
  rw [hstep, stepLine, hdec]

/-- A row word of at most 32 bits is presented as a full line. -/
theorem withFetchWord_input {nbits : Nat} (h : nbits ≤ 32) (s : State) (w : Nat) :
    (s.withFetchWord nbits w).input = ⟨false, some ⟨tableWord nbits w, 32⟩⟩ :: s.input := by
  rw [State.withFetchWord, if_pos h, present_input]

/-- Settles O4: the step dispatches on what the line means; the host presents a row's word as a full line. -/
theorem stepRunsDecodedInstruction : Obligations.StepRunsDecodedInstruction := by
  constructor
  · intro s ln rest i hin hdec
    obtain ⟨_, d, _, rfl⟩ := exists_match_of_decodeLine hdec
    exact ⟨instrOf_wf d.mnemonic ln.word, step_of_instr hin hdec⟩
  · intro s nbits w i hdec
    unfold decodeTableWord at hdec
    split at hdec
    next h => exact step_of_instr (withFetchWord_input h s w) (decodeLine_of_decodeWord_some hdec)
    next => cases hdec

/-! ### The meaning of an instruction on a presented line (R64, R65) -/

/-- An instruction whose meaning answers as a match does answers any line of the domain: with operands of the
format's shape, its own ones on a full word. -/
theorem exec_answers {i : Instr} {s : State} {m : Mnemonic} {f : Format} {n : Nat} {own : Operands}
    (hexec : exec i s = answerInstr s m f n own) (hshape : own.hasShape f = true) {ln : Line} {rest : List Sample}
    (hin : s.input = ⟨false, some ln⟩ :: rest) (hlen : ln.len.toNat ≤ 32) :
    ∃ ops,
      exec i s = .next
        { addrCtr := s.addrCtr + 4, input := rest,
          output := s.output ++ [.instr s.addrCtr m f n (ln.len.toNat == 32) ops] } ∧
      ops.hasShape f = true ∧ (ln.len.toNat = 32 → ops = own) := by
  refine ⟨reportedOperands ln.word ln.len.toNat own, ?_, ?_, fun h32 => ?_⟩
  · rw [hexec, answerInstr_of_line m f n own (event_of_line hin) hlen, emit_eq hin]
  · rw [reportedOperands_hasShape, hshape]
  · rw [h32, reportedOperands_full]

/-- Settles O22: B's meaning is the answer to a match of its row. -/
theorem execOfFormatBAnswers : Obligations.ExecOfFormatBAnswers :=
  fun _ _ _ _ _ => exec_answers rfl rfl

/-- Settles O23: the meanings of CBZ and CBNZ are the answers to matches of their rows. -/
theorem execOfFormatCBAnswers : Obligations.ExecOfFormatCBAnswers := by
  intro p hp rt imm s ln rest
  simp only [List.mem_cons, List.not_mem_nil, or_false] at hp
  rcases hp with rfl | rfl <;> exact exec_answers rfl rfl

/-- Settles O24: the meanings of MOVZ and MOVK are the answers to matches of their rows. -/
theorem execOfFormatIMAnswers : Obligations.ExecOfFormatIMAnswers := by
  intro p hp rd imm shiftCode s ln rest
  simp only [List.mem_cons, List.not_mem_nil, or_false] at hp
  rcases hp with rfl | rfl <;> exact exec_answers rfl rfl

/-- Settles O25: the meanings of ADDI and SUBI are the answers to matches of their rows. -/
theorem execOfFormatIAnswers : Obligations.ExecOfFormatIAnswers := by
  intro p hp rd rn imm s ln rest
  simp only [List.mem_cons, List.not_mem_nil, or_false] at hp
  rcases hp with rfl | rfl <;> exact exec_answers rfl rfl

/-- Settles O26: the meanings of the eight instructions of format R are the answers to matches of their rows. -/
theorem execOfFormatRAnswers : Obligations.ExecOfFormatRAnswers := by
  intro p hp rd rn rm shamt s ln rest
  simp only [List.mem_cons, List.not_mem_nil, or_false] at hp
  rcases hp with rfl | rfl | rfl | rfl | rfl | rfl | rfl | rfl <;> exact exec_answers rfl rfl

/-- Settles O27: the meanings of STUR and LDUR are the answers to matches of their rows. -/
theorem execOfFormatDAnswers : Obligations.ExecOfFormatDAnswers := by
  intro p hp rt rn imm s ln rest
  simp only [List.mem_cons, List.not_mem_nil, or_false] at hp
  rcases hp with rfl | rfl <;> exact exec_answers rfl rfl

/-- Settles O28: BREAK's meaning answers the line without looking at its length. -/
theorem execOfBreakAnswers : Obligations.ExecOfBreakAnswers := by
  intro s ln rest hin hlen
  rw [exec, execBrk, answerLine_of_line (event_of_line hin) hlen, emit_eq hin]

/-! ### Idling (R71) -/

/-- Settles O35: an idle step goes to the next sample, a step with none left stays. -/
theorem idlingChangesNothing : Obligations.IdlingChangesNothing := by
  constructor
  · intro s rest hin
    rw [step_of_idle (event_of_idle hin), State.nextSample, hin, List.tail_cons]
  · intro s hin
    exact step_of_quiet (event_of_nil hin)

/-! ### Runs (R69 to R72) -/

/-- A run goes on from the state its first step leads to. -/
theorem run_succ_of_step {s t : State} (h : step s = .next t) (k : Nat) :
    Host.Core.run core (k + 1) s = Host.Core.run core k t := by
  have hcore : core.step s = .next t := h
  simp only [Host.Core.run, hcore]

theorem inputInDomain_tail {samples : List Sample} (h : inputInDomain samples = true) :
    inputInDomain samples.tail = true := by
  cases samples with
  | nil => rfl
  | cons p rest => exact (Bool.and_eq_true_iff.mp h).2

/-- While every line to come is of the domain, the line on the ports is. -/
theorem line_inDomain {s : State} {ln : Line} (h : inputInDomain s.input = true) (hev : s.event = .line ln) :
    ln.len.toNat ≤ 32 := by
  obtain ⟨rest, hin⟩ := event_eq_line hev
  rw [hin] at h
  exact inDomain_iff.mp (Bool.and_eq_true_iff.mp h).1

/-- While every line to come is of the domain, a step answers a next state, and so it stays. -/
theorem step_inputInDomain {s : State} (h : inputInDomain s.input = true) :
    ∃ t, step s = .next t ∧ inputInDomain t.input = true := by
  obtain ⟨_, hs⟩ | ⟨_, hs⟩ | ⟨_, hs⟩ | ⟨w, len, _, hs⟩ | ⟨ln, hev, hout, _⟩ := step_cases s
  · exact ⟨s, hs, h⟩
  · exact ⟨s.takeReset, hs, inputInDomain_tail h⟩
  · exact ⟨s.nextSample, hs, inputInDomain_tail h⟩
  · exact ⟨_, hs, inputInDomain_tail h⟩
  · exact absurd (line_inDomain h hev) (Nat.not_le.mpr hout)

/-- Settles O38, by induction on the number of steps. -/
theorem domainInputNeverStops : Obligations.DomainInputNeverStops := by
  intro k
  induction k with
  | zero => exact fun s h => ⟨s, rfl, h⟩
  | succ k ih =>
    intro s h
    obtain ⟨t, hstep, ht⟩ := step_inputInDomain h
    rw [run_succ_of_step hstep]
    exact ih t ht

/-- The label `k` lines after the next one is the label `k + 1` lines after this one. -/
theorem label_succ (a : Addr) (k : Nat) :
    a + Config.addrStep + BitVec.ofNat 32 (4 * k) = a + BitVec.ofNat 32 (4 * (k + 1)) := by
  rw [BitVec.add_assoc, Nat.mul_succ, Nat.add_comm, BitVec.ofNat_add]
  rfl

/-- A run over a stream of lines emits the results of the stream, and the counter goes 4 up for each. -/
theorem run_lineSamples {s : State} {lines : List (Word × Fin 33)} (h : s.input = lineSamples lines) :
    Host.Core.run core lines.length s = .next
      { addrCtr := s.addrCtr + BitVec.ofNat 32 (4 * lines.length), input := [],
        output := s.output ++ decodeStream s.addrCtr lines } := by
  induction lines generalizing s with
  | nil =>
    obtain ⟨addrCtr, input, output⟩ := s
    obtain rfl : input = [] := h
    simp [Host.Core.run, decodeStream]
  | cons l ls ih =>
    rw [List.length_cons, run_succ_of_step (step_of_lineSample h), ih rfl, ← label_succ, List.append_assoc]
    rfl

/-- The results of a stream are labelled from its first address on, 4 apart. -/
theorem decodeStream_addr (a : Addr) (lines : List (Word × Fin 33)) :
    (decodeStream a lines).map Result.addr
      = (List.range lines.length).map fun i => a + BitVec.ofNat 32 (4 * i) := by
  induction lines generalizing a with
  | nil => rfl
  | cons l ls ih =>
    rw [decodeStream, List.map_cons, decode_addr, ih, List.length_cons, List.range_succ_eq_map, List.map_cons,
      List.map_map]
    congr 1
    · exact (BitVec.add_zero a).symm
    · exact List.map_congr_left fun i _ => label_succ a i

/-- Settles O39: a line's step is said by `step_of_lineSample`; a stream from reset is labelled as `decodeStream`
is, from 96 on; and below 2^30 - 24 the label is a 32-bit number. -/
theorem stepIsDecodeThenAdvance : Obligations.StepIsDecodeThenAdvance := by
  refine ⟨fun s w len rest hin => ?_, fun lines => ?_, fun k hk => ?_⟩
  · exact ⟨_, step_of_lineSample hin, rfl, rfl, BitVec.toNat_add _ _⟩
  · refine ⟨_, run_lineSamples rfl, ?_⟩
    simp only [reset_output, reset_addrCtr, List.nil_append, decodeStream_addr, BitVec.ofNat_add]
  · rw [BitVec.toNat_ofNat, Nat.mod_eq_of_lt (by omega)]

end Sys2Proof.Machine

/-! ## The operands of each format, and the step on a line that has a row's key

A line of the domain that begins with a row's key is answered by that row (`step_of_row`), whatever the format; what
is left to a format is what its fields are (`extract_b_eq` and its like). -/

namespace Sys2Proof

/-! ### What each format extracts (R73, R76, R80, R84, R88, R98) -/

theorem extract_cb_eq (w : Word) : extract .cb w = .cb (w.extractLsb' 0 5) (w.extractLsb' 5 19).toInt := by
  rw [extract, fieldRt_eq, fieldImmCB_eq]

theorem extract_im_eq (w : Word) :
    extract .im w = .im (w.extractLsb' 0 5) (w.extractLsb' 5 16).toNat (w.extractLsb' 21 2).toNat
      (16 * (w.extractLsb' 21 2).toNat) := by
  rw [extract, opsIM, shiftAmountOf, fieldRd_eq, fieldImmIM_eq, fieldShiftCode_eq]

theorem extract_i_eq (w : Word) :
    extract .i w = .i (w.extractLsb' 0 5) (w.extractLsb' 5 5) (w.extractLsb' 10 12).toInt := by
  rw [extract, fieldRd_eq, fieldRn_eq, fieldImmI_eq]

theorem extract_r_eq (w : Word) :
    extract .r w = .r (w.extractLsb' 0 5) (w.extractLsb' 5 5) (w.extractLsb' 16 5) (w.extractLsb' 10 6) := by
  rw [extract, fieldRd_eq, fieldRn_eq, fieldRm_eq, fieldShamt_eq]

theorem extract_d_eq (w : Word) :
    extract .d w = .d (w.extractLsb' 0 5) (w.extractLsb' 5 5) (w.extractLsb' 12 9).toNat := by
  rw [extract, fieldRt_eq, fieldRn_eq, fieldImmD_eq]

end Sys2Proof

namespace Sys2Proof.Machine

/-! ### The operand list of format R (R88) -/

theorem operandList_r_of_shift {m : Mnemonic} (h : isShift m = true) (rd rn rm : Reg) (shamt : BitVec 6) :
    operandList m (.r rd rn rm shamt) = [.reg rd, .reg rn, .imm shamt.toNat] := by
  rw [operandList, if_pos h]

theorem operandList_r_of_not_shift {m : Mnemonic} (h : isShift m = false) (rd rn rm : Reg) (shamt : BitVec 6) :
    operandList m (.r rd rn rm shamt) = [.reg rd, .reg rn, .reg rm] := by
  rw [operandList, h, if_neg Bool.false_ne_true]

theorem isShift_of_mem_shifts : ∀ m ∈ [Mnemonic.lsr, .lsl, .asr], isShift m = true := by decide

theorem not_isShift_of_mem_three_registers :
    ∀ m ∈ [Mnemonic.and, .add, .orr, .sub, .eor], isShift m = false := by decide

/-- Settles O13: the fields of each format are bit fields of the word, within format R the shift group decides the
operand list, and every other shape has one list for all mnemonics. -/
theorem extractReadsTheFields : Obligations.ExtractReadsTheFields := by
  refine ⟨fun w => ?_, fun rd rn rm shamt => ⟨fun m hm => ?_, fun m hm => ?_⟩, fun m => ?_⟩
  · exact ⟨extract_b_eq w, extract_cb_eq w, extract_im_eq w, extract_i_eq w, extract_r_eq w, extract_d_eq w, rfl, rfl⟩
  · exact operandList_r_of_shift (isShift_of_mem_shifts m hm) rd rn rm shamt
  · exact operandList_r_of_not_shift (not_isShift_of_mem_three_registers m hm) rd rn rm shamt
  · exact ⟨fun _ _ _ => rfl, fun _ _ _ => rfl, fun _ _ => rfl, fun _ _ _ _ => rfl, fun _ _ _ => rfl, rfl⟩

/-! ### The step on a line that has a row's key (R64, R65, R70) -/

/-- A line that begins with a row's key and holds all of it is decoded to that row. -/
theorem decode_of_row {r : Row} (hr : r ∈ table) {w : Word} {len : Fin 33} (hlen : r.len ≤ len.val)
    (hcmp : w &&& r.mask = r.pattern) (a : Addr) :
    decode w len a = .instr a r.desc.mnemonic r.desc.format r.len (len.val == 32)
      (reportedOperands w len.val (extract r.desc.format w)) := by
  have hm : matchLine w len.val = some (r.len, r.desc) := matchLine_eq_some_iff.mpr ⟨r, hr, rfl, rfl, hlen, hcmp⟩
  have hmin : 6 ≤ r.len := (row_of_len_le r hr).1
  rw [decode, if_neg (by rw [minLen]; omega), hm]

/-- The step on a line that has a row's key: the row's result, with operands of the format's shape and ranges, which
on a full word are the extracted ones. -/
theorem step_of_row {r : Row} (hr : r ∈ table) {s : State} {w : Word} {len : Fin 33} {rest : List Sample}
    (hin : s.input = lineSample w len :: rest) (hlen : r.len ≤ len.val) (hcmp : w &&& r.mask = r.pattern) :
    ∃ ops,
      step s = .next
        { addrCtr := s.addrCtr + 4, input := rest,
          output := s.output ++
            [.instr s.addrCtr r.desc.mnemonic r.desc.format r.len (len.val == 32) ops] } ∧
      ops.hasShape r.desc.format = true ∧ ops.inRange = true ∧
      (len.val = 32 → ops = extract r.desc.format w) := by
  refine ⟨reportedOperands w len.val (extract r.desc.format w), ?_, ?_, reportedOperands_inRange _ w _, fun h32 => ?_⟩
  · rw [step_of_lineSample hin, decode_of_row hr hlen hcmp]
  · rw [reportedOperands_hasShape, extract_hasShape]
  · rw [h32, reportedOperands_full]

/-- Settles O15: B is the row of six bits, and its comparator is the one the statement writes out. -/
theorem stepOnFormatB : Obligations.StepOnFormatB := by
  have hrow : (⟨6, 0b000101, .b, .b⟩ : Row) ∈ table := by decide
  refine ⟨fun s w len rest hin hlen hcmp => ?_, by decide, by decide, by decide, by decide⟩
  obtain ⟨ops, hstep, hshape, hrange, hfull⟩ := step_of_row hrow hin hlen hcmp
  exact ⟨ops, hstep, hshape, hrange, fun h32 => (hfull h32).trans (extract_b_eq w)⟩

end Sys2Proof.Machine

/-! ### Format CB (R76 to R78) -/

namespace Sys2Proof.Machine

/-- Settles O16: CBZ and CBNZ are the two rows of eight bits, and one step lemma answers a line that has either key. -/
theorem stepOnFormatCB : Obligations.StepOnFormatCB := by
  have hcbz : (⟨8, 0b10110100, .cbz, .cb⟩ : Row) ∈ table := by decide
  have hcbnz : (⟨8, 0b10110101, .cbnz, .cb⟩ : Row) ∈ table := by decide
  refine ⟨fun p hp s w len rest hin hlen hcmp => ?_, by decide, by decide, by decide, by decide, by decide,
    by decide, by decide, by decide⟩
  rw [← extract_cb_eq]
  simp only [List.mem_cons, List.not_mem_nil, or_false] at hp
  obtain rfl | rfl := hp
  · exact step_of_row hcbz hin hlen hcmp
  · exact step_of_row hcbnz hin hlen hcmp

end Sys2Proof.Machine

/-! ### Format IM (R80 to R82) -/

namespace Sys2Proof.Machine

/-- Settles O17: MOVZ and MOVK are the two rows of nine bits; the step lemma of a row answers a line that has either
key, and the shift code is a field like the others, so no value of it is excluded. -/
theorem stepOnFormatIM : Obligations.StepOnFormatIM := by
  have hmovz : (⟨9, 0b110100101, .movz, .im⟩ : Row) ∈ table := by decide
  have hmovk : (⟨9, 0b111100101, .movk, .im⟩ : Row) ∈ table := by decide
  refine ⟨fun p hp s w len rest hin hlen hcmp => ?_, by decide, by decide, by decide, by decide, by decide,
    by decide, by decide⟩
  rw [← extract_im_eq]
  simp only [List.mem_cons, List.not_mem_nil, or_false] at hp
  obtain rfl | rfl := hp
  · exact step_of_row hmovz hin hlen hcmp
  · exact step_of_row hmovk hin hlen hcmp

end Sys2Proof.Machine

/-! ### Format I (R84 to R87) -/

namespace Sys2Proof

theorem fitsSigned_of_bounds {n : Nat} {x : Int} (hlow : -(2 ^ (n - 1) : Int) ≤ x) (hhigh : x < (2 ^ (n - 1) : Int)) :
    fitsSigned n x = true := by
  rw [fitsSigned, decide_eq_true hlow, decide_eq_true hhigh, Bool.and_self]

/-- R87 through the encoder: the immediate of an encoded ADDI is read back. -/
theorem fieldImmI_encode_addi (rd rn : Reg) {imm : Int} (h : fitsSigned 12 imm = true) :
    fieldImmI (encode (.addi rd rn imm)) = imm := by
  obtain ⟨_, _, himm⟩ := fields_placeI 0b1001000100 rd rn h
  exact himm

/-- Settles O11: `fieldOf` writes a number as its pattern and `sext` reads it back, at every width that can hold it;
the immediate of format I is such a field at width 12. -/
theorem signExtensionRoundTrip : Obligations.SignExtensionRoundTrip := by
  refine ⟨fun n x hn hlow hhigh => ?_, fun rd rn x hlow hhigh => ?_, by decide, by decide, by decide, by decide⟩
  · have hfits : fitsSigned n x = true := fitsSigned_of_bounds hlow hhigh
    exact sext_fieldOf hn hfits
  · have hfits : fitsSigned 12 x = true := fitsSigned_of_bounds (by omega) (by omega)
    exact fieldImmI_encode_addi rd rn hfits

end Sys2Proof

namespace Sys2Proof.Machine

/-- Settles O18: ADDI and SUBI are the two rows of ten bits; the step lemma of a row answers a line that has either
key, and the immediate is the signed field under both mnemonics, so a negative one turns neither into the other. -/
theorem stepOnFormatI : Obligations.StepOnFormatI := by
  have haddi : (⟨10, 0b1001000100, .addi, .i⟩ : Row) ∈ table := by decide
  have hsubi : (⟨10, 0b1101000100, .subi, .i⟩ : Row) ∈ table := by decide
  refine ⟨fun p hp s w len rest hin hlen hcmp => ?_, by decide, by decide, by decide, by decide, by decide,
    by decide, by decide, by decide⟩
  rw [← extract_i_eq]
  simp only [List.mem_cons, List.not_mem_nil, or_false] at hp
  obtain rfl | rfl := hp
  · exact step_of_row haddi hin hlen hcmp
  · exact step_of_row hsubi hin hlen hcmp

end Sys2Proof.Machine

/-! ### Format R (R88 to R97) -/

namespace Sys2Proof

/-- The eight comparators of format R are those of its eight rows: all of eleven bits, under one mask. -/
theorem exists_row_of_formatR_comparator :
    ∀ p ∈ [(0x8A000000#32, Mnemonic.and), (0x8B000000#32, .add), (0xAA000000#32, .orr), (0xCB000000#32, .sub),
      (0xD3400000#32, .lsr), (0xD3600000#32, .lsl), (0xD3800000#32, .asr), (0xEA000000#32, .eor)],
    ∃ r ∈ table, r.len = 11 ∧ r.desc = ⟨p.2, .r⟩ ∧ r.mask = 0xFFE00000#32 ∧ r.pattern = p.1 := by
  decide

/-- A word matches no row, at any length, if its leading `n` bits agree with no row's key on the shorter one's
length. -/
theorem matchLine_eq_none_of_no_common_prefix {w : Word} {n : Nat} (hn : n ≤ 32)
    (h : ∀ r ∈ table, candidateKey w n / 2 ^ (n - min n r.len) ≠ r.key / 2 ^ (r.len - min n r.len)) (len : Nat) :
    matchLine w len = none := by
  refine matchLine_eq_none_iff.mpr fun r hr _ hcmp => h r hr ?_
  rw [← (candidateKey_eq_iff w hr).mpr hcmp, candidateKey_div w (min_le_left _ _) hn,
    candidateKey_div w (min_le_right _ _) (row_len_le r hr)]

/-- R97, R101: no row's key begins with a neighbouring value, and none is the beginning of one. -/
theorem neighbour_keys_no_common_prefix : ∀ k ∈ [1689, 1693, 1985, 1987], ∀ r ∈ table,
    k / 2 ^ (11 - min 11 r.len) ≠ r.key / 2 ^ (r.len - min 11 r.len) := by
  decide

end Sys2Proof

namespace Sys2Proof.Machine

theorem isShift_eq_true_iff (m : Mnemonic) : isShift m = true ↔ m ∈ [Mnemonic.lsr, .lsl, .asr] := by
  cases m <;> decide

/-- R88: within format R the shift group alone takes `shamt` for its third operand, and leaves `rm` out. -/
theorem operandList_r_eq (m : Mnemonic) (rd rn rm : Reg) (shamt : BitVec 6) :
    operandList m (.r rd rn rm shamt) =
      if m ∈ [Mnemonic.lsr, .lsl, .asr] then [.reg rd, .reg rn, .imm shamt.toNat]
      else [.reg rd, .reg rn, .reg rm] := by
  by_cases h : isShift m = true
  · rw [operandList_r_of_shift h, if_pos ((isShift_eq_true_iff m).mp h)]
  · rw [operandList_r_of_not_shift (Bool.eq_false_of_not_eq_true h), if_neg (mt (isShift_eq_true_iff m).mpr h)]

/-- Settles O19: the comparator names one of the eight rows of format R, the step lemma of a row answers the line, and
on a full word the mnemonic decides which three of the four extracted fields are operands. -/
theorem stepOnFormatR : Obligations.StepOnFormatR := by
  refine ⟨fun p hp s w len rest hin hlen hcmp => ?_, by decide, by decide, by decide, by decide, by decide,
    by decide, by decide, by decide, by decide, by decide, by decide, by decide, by decide, by decide, by decide,
    by decide, by decide, by decide, by decide, by decide, by decide⟩
  obtain ⟨r, hr, hrlen, hdesc, hmask, hpat⟩ := exists_row_of_formatR_comparator p hp
  have hstep := step_of_row hr hin (hrlen.le.trans hlen) (by rw [hmask, hpat, hcmp])
  rw [hrlen, hdesc] at hstep
  obtain ⟨ops, hnext, hshape, hrange, hfull⟩ := hstep
  refine ⟨ops, hnext, hshape, hrange, fun h32 => ?_⟩
  have hops := (hfull h32).trans (extract_r_eq w)
  exact ⟨hops, by rw [hops, operandList_r_eq]⟩

/-- R66: a full word that no row matches is data. -/
theorem decode_of_unmatched_word {w : Word} {len : Fin 33} (h32 : len.val = 32) (hm : matchLine w len.val = none)
    (a : Addr) : decode w len a = .data a w.toInt := by
  obtain ⟨hlt, _⟩ | ⟨_, _, hsome, _⟩ | ⟨_, _, h⟩ | ⟨_, hle, _⟩ := line_cases w len
  · omega
  · rw [hm] at hsome
    cases hsome
  · exact h a
  · omega

/-- Settles O33: a word that begins with a neighbouring value matches no row at any length, so a full word is data
and a shorter line is unknown with those eleven bits. -/
theorem neighbourKeysMatchNothing : Obligations.NeighbourKeysMatchNothing := by
  intro k hk w len a hlen hkey
  have hnone : matchLine w len.val = none := by
    refine matchLine_eq_none_of_no_common_prefix (n := 11) (by decide) ?_ len.val
    rw [hkey]
    exact neighbour_keys_no_common_prefix k hk
  split
  next h32 => exact decode_of_unmatched_word h32 hnone a
  next h32 => rw [decode_of_unmatched (by omega) (by omega) hnone, min_eq_right hlen, hkey]

end Sys2Proof.Machine

/-! ### Format D (R98 to R100) -/

namespace Sys2Proof.Machine

/-- Settles O20: STUR and LDUR are the two rows of format D, of eleven bits; the step lemma of a row answers a line
that has either key. The operands skip `word[11:10]`, so the two LDUR words that differ there alone give one result. -/
theorem stepOnFormatD : Obligations.StepOnFormatD := by
  have hstur : (⟨11, 0b11111000000, .stur, .d⟩ : Row) ∈ table := by decide
  have hldur : (⟨11, 0b11111000010, .ldur, .d⟩ : Row) ∈ table := by decide
  refine ⟨fun p hp s w len rest hin hlen hcmp => ?_, by decide, by decide, by decide, by decide, by decide,
    by decide, by decide, by decide⟩
  rw [← extract_d_eq]
  simp only [List.mem_cons, List.not_mem_nil, or_false] at hp
  obtain rfl | rfl := hp
  · exact step_of_row hstur hin hlen hcmp
  · exact step_of_row hldur hin hlen hcmp

end Sys2Proof.Machine

/-! ### BREAK, the NOP tag and the data word (47_break_nop_data.md R102 to R107)

An instruction result names the row whose comparator holds (`decode_eq_instr`), and a full word on which no comparator
holds is data (`decode_of_no_comparator`); what is said of BREAK and of NOP is read off the rows. -/

namespace Sys2Proof

/-- BREAK's row of the table (30_encoding.md R47). -/
def brkRow : Row := ⟨32, 0xFEDEFFE7, .brk, .brk⟩

theorem brkRow_mem : brkRow ∈ table := by decide

theorem row_eq_of_brk : ∀ r ∈ table, r.desc.mnemonic = .brk → r = brkRow := by decide

/-- BREAK's comparator looks at all 32 bits, so it holds on the literal alone. -/
theorem brk_comparator_iff (w : Word) : w &&& brkRow.mask = brkRow.pattern ↔ w = 0xFEDEFFE7#32 := by
  have hmask : brkRow.mask = BitVec.allOnes 32 := by decide
  rw [hmask, BitVec.and_allOnes]
  rfl

/-- R102: wherever BREAK's literal is changed in one bit, the word meets neither BREAK's comparator nor another
row's. -/
theorem brk_one_bit_off_matches_no_row : ∀ k < 32, ∀ r ∈ table,
    (0xFEDEFFE7#32 ^^^ BitVec.twoPow 32 k) &&& r.mask ≠ r.pattern := by
  decide

/-- R105: the signed value of a word by its leftmost bit. -/
theorem word_toInt_eq_ite (w : Word) :
    w.toInt = if w.getLsbD 31 = true then (w.toNat : Int) - 2 ^ 32 else (w.toNat : Int) := by
  have hmsb : w.msb = w.getLsbD 31 := BitVec.msb_eq_getLsbD_last w
  rw [BitVec.toInt_eq_msb_cond, hmsb]
  rfl

end Sys2Proof

namespace Sys2Proof.Machine

/-- An instruction result is that of the row whose comparator holds on the line. -/
theorem decode_eq_instr {w : Word} {len : Fin 33} {a addr : Addr} {m : Mnemonic} {f : Format} {n : Nat} {valid : Bool}
    {ops : Operands} (h : decode w len a = .instr addr m f n valid ops) :
    ∃ r ∈ table, r.len ≤ len.val ∧ w &&& r.mask = r.pattern ∧ r.desc = ⟨m, f⟩ ∧ n = r.len ∧
      valid = (len.val == 32) ∧ ops = reportedOperands w len.val (extract f w) := by
  obtain ⟨_, _, hd⟩ | ⟨_, _, hm, _, hd⟩ | ⟨_, _, hd⟩ | ⟨_, _, _, hd⟩ := line_cases w len <;>
    rw [hd] at h <;> cases h
  obtain ⟨r, hr, rfl, rfl, hle, hcmp⟩ := matchLine_eq_some_iff.mp hm
  exact ⟨r, hr, hle, hcmp, rfl, rfl, rfl, rfl⟩

/-- R66: a full word on which no row's comparator holds is data. -/
theorem decode_of_no_comparator {w : Word} (h : ∀ r ∈ table, w &&& r.mask ≠ r.pattern) (a : Addr) :
    decode w 32 a = .data a w.toInt :=
  decode_of_unmatched_word rfl (matchLine_eq_none_iff.mpr fun r hr _ => h r hr) a

/-- R106: a full word is data exactly when no row's comparator holds on it. -/
theorem decode_full_eq_data_iff {w : Word} {a : Addr} :
    (∃ v, decode w 32 a = .data a v) ↔ ∀ r ∈ table, w &&& r.mask ≠ r.pattern := by
  constructor
  · rintro ⟨v, hdata⟩ r hr hcmp
    rw [decode_of_row hr (row_len_le r hr) hcmp] at hdata
    cases hdata
  · exact fun h => ⟨_, decode_of_no_comparator h a⟩

theorem decode_brk (a : Addr) : decode 0xFEDEFFE7#32 32 a = .instr a .brk .brk 32 true .none :=
  decode_of_row brkRow_mem le_rfl ((brk_comparator_iff _).mpr rfl) a

/-- R102: only the literal at full length is decoded to BREAK. -/
theorem decode_eq_brk {w : Word} {len : Fin 33} {a addr : Addr} {f : Format} {n : Nat} {valid : Bool} {ops : Operands}
    (h : decode w len a = .instr addr .brk f n valid ops) :
    w = 0xFEDEFFE7#32 ∧ len = 32 ∧ f = .brk ∧ n = 32 ∧ valid = true ∧ ops = .none := by
  obtain ⟨r, hr, hle, hcmp, hdesc, _⟩ := decode_eq_instr h
  obtain rfl := row_eq_of_brk r hr (by rw [hdesc])
  obtain rfl := (brk_comparator_iff w).mp hcmp
  obtain rfl : len = 32 := Fin.ext (Nat.le_antisymm (Nat.le_of_lt_succ len.isLt) hle)
  rw [decode_brk] at h
  cases h
  exact ⟨rfl, rfl, rfl, rfl, rfl, rfl⟩

/-- Settles O14: a result of format NOP would be that of a row with the tag, and there is none; on the zero word no
comparator holds. -/
theorem noInputProducesNop : Obligations.NoInputProducesNop := by
  refine ⟨fun w len a addr m n valid ops h => ?_, row_format_ne_nop, fun _ => rfl,
    fun a => decode_of_no_comparator (by decide) a⟩
  obtain ⟨r, hr, _, _, hdesc, _⟩ := decode_eq_instr h
  exact row_format_ne_nop r hr (by rw [hdesc])

/-- Settles O21: BREAK's comparator asks for all 32 bits, so its literal is decoded to it and nothing else is; and no
row's comparator holds one bit off the literal. -/
theorem stepOnBreak : Obligations.StepOnBreak := by
  refine ⟨fun s rest hin => ?_, fun w len a addr f n valid ops => decode_eq_brk, fun k a hk => ?_, rfl, by decide,
    by decide, by decide, ?_⟩
  · rw [step_of_lineSample hin, decode_brk]
  · exact decode_of_no_comparator (brk_one_bit_off_matches_no_row k hk) a
  · rw [decode_brk]
    decide

/-- Settles O32: a full word on which no comparator holds is answered by its signed value, one on which a comparator
holds by that row; the corner cases are words of the first kind. -/
theorem unmatchedWordIsData : Obligations.UnmatchedWordIsData := by
  refine ⟨fun s w rest hin h => ?_, fun w a => decode_full_eq_data_iff, fun a => ?_, by decide⟩
  · rw [step_of_lineSample hin, decode_of_no_comparator h, word_toInt_eq_ite]
  · refine ⟨?_, ?_, ?_, ?_, ?_, ?_⟩ <;> exact decode_of_no_comparator (by decide) a

end Sys2Proof.Machine

/-! ### Reset and a run of lines (70_reset_and_hazards.md R129, R138)

A reset step's state is said by `step_of_reset`, a run's by `run_lineSamples`; what is left of R138 is which result
stands at which place of the stream. -/

namespace Sys2Proof.Machine

/-- R129: the state after a step with reset asserted, as a record. -/
theorem takeReset_eq {s : State} {p : Sample} {rest : List Sample} (h : s.input = p :: rest) :
    s.takeReset = { addrCtr := 96, input := rest, output := s.output } := by
  have htake : s.takeReset = ⟨96, s.input.tail, s.output⟩ := rfl
  rw [htake, h, List.tail_cons]

/-- Settles O34: the event is the reset whatever stands on the line port, and the sample goes with its line. -/
theorem resetStepGoesToBase : Obligations.ResetStepGoesToBase := by
  intro s line rest hin
  rw [step_of_reset (event_of_reset hin), takeReset_eq hin]

/-- R138: a stream has one result for each line. -/
theorem decodeStream_length (a : Addr) (lines : List (Word × Fin 33)) :
    (decodeStream a lines).length = lines.length := by
  simpa using congrArg List.length (decodeStream_addr a lines)

/-- R138: the result at place `i` is `Decode` of the line at place `i`, at the address `4 i` above the first. -/
theorem decodeStream_getElem? (a : Addr) (lines : List (Word × Fin 33)) (i : Nat) :
    (decodeStream a lines)[i]? = lines[i]?.map fun l => decode l.1 l.2 (a + BitVec.ofNat 32 (4 * i)) := by
  induction lines generalizing a i with
  | nil => rfl
  | cons l ls ih =>
    rw [decodeStream]
    cases i with
    | zero => simp
    | succ i => rw [List.getElem?_cons_succ, List.getElem?_cons_succ, ih, label_succ]

/-- Settles O40: `run_lineSamples` gives the end state from any state; from reset its counter starts at 96, and the
results are the stream's, place by place. -/
theorem runOfLinesFromReset : Obligations.RunOfLinesFromReset := by
  refine ⟨fun s lines => run_lineSamples, fun lines => ⟨_, run_lineSamples rfl, ?_, ?_, fun i hi => ?_⟩⟩
  · rw [reset_addrCtr, ← BitVec.ofNat_add, BitVec.toNat_ofNat]
  · rw [reset_output, List.nil_append, decodeStream_length]
  · rw [reset_output, List.nil_append, decodeStream_getElem?, List.getElem?_eq_getElem hi, reset_addrCtr,
      BitVec.ofNat_add]
    rfl

end Sys2Proof.Machine
